-- ==== Sys2Proof/Word.lean ====
section
/-! DEFINITION. The machine's words: plain bit vectors, so that the library's lemmas apply. -/

namespace Sys2Proof

/-- A general register, the pc or a virtual address: GRLEN = 64 bits (R2, R20, R23). -/
abbrev Word := BitVec 64

/-- The smallest addressable unit (R9, R40). -/
abbrev Byte := BitVec 8

/-- One instruction: always 32 bits (R71). -/
abbrev InstrWord := BitVec 32

/-- A register operand `rd`, `rj`, `rk` (R13, R20). -/
abbrev RegNum := BitVec 5

end Sys2Proof
end

