-- ==== Sys2Proof/Syntax.lean ====
section
/-! DEFINITION. The 28 instructions of R3 and R169, one constructor for each row of
spec/opcode_table.json, in the table's order. Operands are the fields of R13 in the order of the
listings of R82; every value of a field is legal (R76), so a field's type is its width. -/

namespace Sys2Proof

/-- An instruction in scope (R3). `si12` and `si14` are raw fields that the meanings extend. -/
inductive Instr where
  | ldB (rd rj : RegNum) (si12 : BitVec 12)
  | ldH (rd rj : RegNum) (si12 : BitVec 12)
  | ldW (rd rj : RegNum) (si12 : BitVec 12)
  | ldD (rd rj : RegNum) (si12 : BitVec 12)
  | ldBu (rd rj : RegNum) (si12 : BitVec 12)
  | ldHu (rd rj : RegNum) (si12 : BitVec 12)
  | ldWu (rd rj : RegNum) (si12 : BitVec 12)
  | stB (rd rj : RegNum) (si12 : BitVec 12)
  | stH (rd rj : RegNum) (si12 : BitVec 12)
  | stW (rd rj : RegNum) (si12 : BitVec 12)
  | stD (rd rj : RegNum) (si12 : BitVec 12)
  | ldxB (rd rj rk : RegNum)
  | ldxH (rd rj rk : RegNum)
  | ldxW (rd rj rk : RegNum)
  | ldxD (rd rj rk : RegNum)
  | ldxBu (rd rj rk : RegNum)
  | ldxHu (rd rj rk : RegNum)
  | ldxWu (rd rj rk : RegNum)
  | stxB (rd rj rk : RegNum)
  | stxH (rd rj rk : RegNum)
  | stxW (rd rj rk : RegNum)
  | stxD (rd rj rk : RegNum)
  | ldptrW (rd rj : RegNum) (si14 : BitVec 14)
  | ldptrD (rd rj : RegNum) (si14 : BitVec 14)
  | stptrW (rd rj : RegNum) (si14 : BitVec 14)
  | stptrD (rd rj : RegNum) (si14 : BitVec 14)
  | preld (hint : BitVec 5) (rj : RegNum) (si12 : BitVec 12)
  | preldx (hint : BitVec 5) (rj rk : RegNum)
  deriving DecidableEq, Repr

end Sys2Proof
end

