-- ==== Sys2Proof/WellFormed.lean ====
section
/-! DEFINITION. Well-formed operands: the ranges of R13 and R82 for operands written as numbers, the
operand list of each instruction in the order of its listing, and the listing itself. -/

namespace Sys2Proof

/-- An operand as a listing writes it: a register number, a hint, or a displacement (R82, D26). -/
inductive Operand where
  | reg (n : Nat)
  | hint (n : Nat)
  | si12 (d : Int)
  | si14 (d : Int)
  deriving DecidableEq, Repr

/-- The range of each operand: registers and hints 0 to 31, `si12` -2048 to 2047, `si14` (the field
value, not the byte displacement) -8192 to 8191 (R13, R75, R82). -/
def Operand.wf : Operand → Bool
  | .reg n => n < 32
  | .hint n => n < 32
  | .si12 d => -2048 ≤ d && d ≤ 2047
  | .si14 d => -8192 ≤ d && d ≤ 8191

/-- `rd, rj, si12` (R72). -/
def operands2RI12 (rd rj : RegNum) (si12 : BitVec 12) : List Operand :=
  [.reg rd.toNat, .reg rj.toNat, .si12 si12.toInt]

/-- `rd, rj, si14` (R73). -/
def operands2RI14 (rd rj : RegNum) (si14 : BitVec 14) : List Operand :=
  [.reg rd.toNat, .reg rj.toNat, .si14 si14.toInt]

/-- `rd, rj, rk` (R74). -/
def operands3R (rd rj rk : RegNum) : List Operand :=
  [.reg rd.toNat, .reg rj.toNat, .reg rk.toNat]

/-- The mnemonic and the operands of an instruction as R82 lists them. -/
def Instr.parts : Instr → String × List Operand
  | .ldB rd rj i => ("ld.b", operands2RI12 rd rj i)
  | .ldH rd rj i => ("ld.h", operands2RI12 rd rj i)
  | .ldW rd rj i => ("ld.w", operands2RI12 rd rj i)
  | .ldD rd rj i => ("ld.d", operands2RI12 rd rj i)
  | .ldBu rd rj i => ("ld.bu", operands2RI12 rd rj i)
  | .ldHu rd rj i => ("ld.hu", operands2RI12 rd rj i)
  | .ldWu rd rj i => ("ld.wu", operands2RI12 rd rj i)
  | .stB rd rj i => ("st.b", operands2RI12 rd rj i)
  | .stH rd rj i => ("st.h", operands2RI12 rd rj i)
  | .stW rd rj i => ("st.w", operands2RI12 rd rj i)
  | .stD rd rj i => ("st.d", operands2RI12 rd rj i)
  | .ldxB rd rj rk => ("ldx.b", operands3R rd rj rk)
  | .ldxH rd rj rk => ("ldx.h", operands3R rd rj rk)
  | .ldxW rd rj rk => ("ldx.w", operands3R rd rj rk)
  | .ldxD rd rj rk => ("ldx.d", operands3R rd rj rk)
  | .ldxBu rd rj rk => ("ldx.bu", operands3R rd rj rk)
  | .ldxHu rd rj rk => ("ldx.hu", operands3R rd rj rk)
  | .ldxWu rd rj rk => ("ldx.wu", operands3R rd rj rk)
  | .stxB rd rj rk => ("stx.b", operands3R rd rj rk)
  | .stxH rd rj rk => ("stx.h", operands3R rd rj rk)
  | .stxW rd rj rk => ("stx.w", operands3R rd rj rk)
  | .stxD rd rj rk => ("stx.d", operands3R rd rj rk)
  | .ldptrW rd rj i => ("ldptr.w", operands2RI14 rd rj i)
  | .ldptrD rd rj i => ("ldptr.d", operands2RI14 rd rj i)
  | .stptrW rd rj i => ("stptr.w", operands2RI14 rd rj i)
  | .stptrD rd rj i => ("stptr.d", operands2RI14 rd rj i)
  | .preld h rj i => ("preld", [.hint h.toNat, .reg rj.toNat, .si12 i.toInt])
  | .preldx h rj rk => ("preldx", [.hint h.toNat, .reg rj.toNat, .reg rk.toNat])

/-- Every operand is in its range. It holds of every instruction, as R76 says: "every field value is
legal" (`Laws.OperandsInRange`). -/
def Instr.wf (i : Instr) : Bool := i.parts.2.all Operand.wf

/-- One operand of a listing; register i is written `r<i>` (R83). -/
def Operand.text : Operand → String
  | .reg n => "r" ++ toString n
  | .hint n => toString n
  | .si12 d => toString d
  | .si14 d => toString d

/-- The listing of an instruction: mnemonic, then the operands separated by commas (R82). -/
def Instr.listing (i : Instr) : String :=
  i.parts.1 ++ " " ++ ", ".intercalate (i.parts.2.map Operand.text)

end Sys2Proof
end

