-- ==== Sys2Proof/Decode.lean ====
section
/-! DEFINITION. Decoding (R70 to R80), total on words and on bytes, rejecting by name, and the encoder
written from the same tables. A row of a table is an opcode and the constructor it stands for. -/

namespace Sys2Proof

/-- Why bits are no instruction in scope. -/
inductive Reject where
  /-- The word matches none of the 28 rows (R80). -/
  | notInScope (w : InstrWord)
  /-- Fewer than the 4 bytes of an instruction are there (R71). -/
  | tooShort (bytes : Nat)
  deriving DecidableEq, Repr

/-- `rd` (or `hint`), bits 4:0 (R75). -/
def fieldRd (w : InstrWord) : BitVec 5 := w.extractLsb' 0 5

/-- `rj`, bits 9:5 (R75). -/
def fieldRj (w : InstrWord) : BitVec 5 := w.extractLsb' 5 5

/-- `rk`, bits 14:10 (R75). -/
def fieldRk (w : InstrWord) : BitVec 5 := w.extractLsb' 10 5

/-- `si12`, bits 21:10 (R75). -/
def fieldSi12 (w : InstrWord) : BitVec 12 := w.extractLsb' 10 12

/-- `si14`, bits 23:10 (R75). -/
def fieldSi14 (w : InstrWord) : BitVec 14 := w.extractLsb' 10 14

/-- The opcode map of format 2RI12, by `op10` (R77). -/
def rows2RI12 : List (BitVec 10 × (BitVec 5 → BitVec 5 → BitVec 12 → Instr)) :=
  [(0x0A0, .ldB), (0x0A1, .ldH), (0x0A2, .ldW), (0x0A3, .ldD),
   (0x0A4, .stB), (0x0A5, .stH), (0x0A6, .stW), (0x0A7, .stD),
   (0x0A8, .ldBu), (0x0A9, .ldHu), (0x0AA, .ldWu), (0x0AB, .preld)]

/-- The opcode map of format 2RI14, by `op8` (R78). -/
def rows2RI14 : List (BitVec 8 × (BitVec 5 → BitVec 5 → BitVec 14 → Instr)) :=
  [(0x24, .ldptrW), (0x25, .stptrW), (0x26, .ldptrD), (0x27, .stptrD)]

/-- The opcode map of format 3R, by `op17` (R79). -/
def rows3R : List (BitVec 17 × (BitVec 5 → BitVec 5 → BitVec 5 → Instr)) :=
  [(0x07000, .ldxB), (0x07008, .ldxH), (0x07010, .ldxW), (0x07018, .ldxD),
   (0x07020, .stxB), (0x07028, .stxH), (0x07030, .stxW), (0x07038, .stxD),
   (0x07040, .ldxBu), (0x07048, .ldxHu), (0x07050, .ldxWu), (0x07058, .preldx)]

/-- Format 2RI12: opcode in bits 31:22 (R72). -/
def decode2RI12 (w : InstrWord) : Option Instr :=
  (rows2RI12.lookup (w.extractLsb' 22 10)).map fun mk => mk (fieldRd w) (fieldRj w) (fieldSi12 w)

/-- Format 2RI14: opcode in bits 31:24 (R73). -/
def decode2RI14 (w : InstrWord) : Option Instr :=
  (rows2RI14.lookup (w.extractLsb' 24 8)).map fun mk => mk (fieldRd w) (fieldRj w) (fieldSi14 w)

/-- Format 3R: opcode in bits 31:15 (R74). -/
def decode3R (w : InstrWord) : Option Instr :=
  (rows3R.lookup (w.extractLsb' 15 17)).map fun mk => mk (fieldRd w) (fieldRj w) (fieldRk w)

/-- R76: a word is the instruction of the one row it matches, or `NotInScope`. -/
def decode (w : InstrWord) : Except Reject Instr :=
  match (decode2RI14 w).or ((decode2RI12 w).or (decode3R w)) with
  | some i => .ok i
  | none => .error (.notInScope w)

/-- The word whose four bytes stand at rising addresses: byte a holds bits 7:0 (R70). -/
def wordOfBytes (b0 b1 b2 b3 : Byte) : InstrWord := b3 ++ b2 ++ b1 ++ b0

/-- The four bytes of a word, the byte of the lowest address first (R70). -/
def bytesOfWord (w : InstrWord) : List Byte :=
  [w.extractLsb' 0 8, w.extractLsb' 8 8, w.extractLsb' 16 8, w.extractLsb' 24 8]

/-- The instruction at the front of a list of bytes and the bytes after it. -/
def decodeBytes : List Byte → Except Reject (Instr × List Byte)
  | b0 :: b1 :: b2 :: b3 :: rest => (decode (wordOfBytes b0 b1 b2 b3)).map fun i => (i, rest)
  | bs => .error (.tooShort bs.length)

/-- Word = `op10 << 22 | si12 << 10 | rj << 5 | rd` (R72). -/
def encode2RI12 (op : BitVec 10) (rd rj : BitVec 5) (si12 : BitVec 12) : InstrWord :=
  op ++ si12 ++ rj ++ rd

/-- Word = `op8 << 24 | si14 << 10 | rj << 5 | rd` (R73). -/
def encode2RI14 (op : BitVec 8) (rd rj : BitVec 5) (si14 : BitVec 14) : InstrWord :=
  op ++ si14 ++ rj ++ rd

/-- Word = `op17 << 15 | rk << 10 | rj << 5 | rd` (R74). -/
def encode3R (op : BitVec 17) (rd rj rk : BitVec 5) : InstrWord :=
  op ++ rk ++ rj ++ rd

/-- The word of an instruction (R72 to R79). -/
def encode : Instr → InstrWord
  | .ldB rd rj i => encode2RI12 0x0A0 rd rj i
  | .ldH rd rj i => encode2RI12 0x0A1 rd rj i
  | .ldW rd rj i => encode2RI12 0x0A2 rd rj i
  | .ldD rd rj i => encode2RI12 0x0A3 rd rj i
  | .stB rd rj i => encode2RI12 0x0A4 rd rj i
  | .stH rd rj i => encode2RI12 0x0A5 rd rj i
  | .stW rd rj i => encode2RI12 0x0A6 rd rj i
  | .stD rd rj i => encode2RI12 0x0A7 rd rj i
  | .ldBu rd rj i => encode2RI12 0x0A8 rd rj i
  | .ldHu rd rj i => encode2RI12 0x0A9 rd rj i
  | .ldWu rd rj i => encode2RI12 0x0AA rd rj i
  | .preld h rj i => encode2RI12 0x0AB h rj i
  | .ldptrW rd rj i => encode2RI14 0x24 rd rj i
  | .stptrW rd rj i => encode2RI14 0x25 rd rj i
  | .ldptrD rd rj i => encode2RI14 0x26 rd rj i
  | .stptrD rd rj i => encode2RI14 0x27 rd rj i
  | .ldxB rd rj rk => encode3R 0x07000 rd rj rk
  | .ldxH rd rj rk => encode3R 0x07008 rd rj rk
  | .ldxW rd rj rk => encode3R 0x07010 rd rj rk
  | .ldxD rd rj rk => encode3R 0x07018 rd rj rk
  | .stxB rd rj rk => encode3R 0x07020 rd rj rk
  | .stxH rd rj rk => encode3R 0x07028 rd rj rk
  | .stxW rd rj rk => encode3R 0x07030 rd rj rk
  | .stxD rd rj rk => encode3R 0x07038 rd rj rk
  | .ldxBu rd rj rk => encode3R 0x07040 rd rj rk
  | .ldxHu rd rj rk => encode3R 0x07048 rd rj rk
  | .ldxWu rd rj rk => encode3R 0x07050 rd rj rk
  | .preldx h rj rk => encode3R 0x07058 h rj rk

/-- The instruction word whose bits, in the table's numbering, are the low `nbits` bits of `w`; every
bit above them is 0. -/
def tableWord (nbits w : Nat) : InstrWord := BitVec.ofNat 32 (w % 2 ^ nbits)

/-- The instruction the decoder reads from a row's bits, laid out as the hardware stores them. -/
def decodeTableWord (nbits w : Nat) : Option Instr :=
  match decodeBytes (bytesOfWord (tableWord nbits w)) with
  | .ok (i, _) => some i
  | .error _ => none

end Sys2Proof
end

