-- ==== Sys2Proof/Config.lean ====
section
/-! DEFINITION. What an implementation or a launch fixes and the spec leaves open. A constant without a
body is open: nothing in Lean can evaluate it, and what is proved holds for every value of it. -/

namespace Sys2Proof.Config

/-- `UAL_HW` of the reset state: whether the hardware supports non-aligned access. Open, no default
(R5, R47, D10; log 5). Every other state carries its own value. -/
opaque ualHw : Bool

/-- `UAL_ENV` of the reset state: whether the environment allows non-aligned access. Open, no default
(R5, R47, D10; log 5). -/
opaque ualEnv : Bool

/-- `CacheAttr`: whether an address is cached. Open, and no result depends on it (R5, R151; log 16). -/
opaque cacheAttr : Word → Bool

/-- `PRELDX_BLOCK_BYTES(F)`: the bytes of a prefetch block for the field value F. Open, and no result
depends on it (R5, R162, C13; log 16). -/
opaque preldxBlockBytes : BitVec 6 → Nat

/-- DESIGN CHOICE, unsafe: what general registers 1 to 31 hold after reset; R33 gives no value (log 2). -/
def resetGr : Word := 0

/-- PRESUMED, unsafe: the pc after reset, the family's start address as R33 mentions it for orientation
(log 3). -/
def resetPc : Word := 0x1C000000

/-- Physical addresses are natural numbers below this (R45). -/
def physTop : Nat := 2 ^ 64

/-- DESIGN CHOICE, unsafe: what a byte of the memory's domain reads as when it is not listed (log 4). -/
def unlistedByte : Byte := 0

end Sys2Proof.Config
end

