-- ==== Sys2Proof/Machine/State.lean ====
section
/-! DEFINITION. The state of the machine as plain data (R32), the launch parameters that are data
(R5, R190), the reasons a step stops (R170), and the state after reset (R33). -/

namespace Sys2Proof.Machine

/-- What an access does (R10). -/
inductive AccessKind where
  | load
  | store
  deriving DecidableEq, Repr

/-- The source's size names BYTE, HALFWORD, WORD, DOUBLEWORD (R9). -/
inductive AccessSize where
  | byte
  | halfword
  | word
  | doubleword
  deriving DecidableEq, Repr

/-- The number of bytes n of a size (R9). -/
def AccessSize.bytes : AccessSize → Nat
  | .byte => 1
  | .halfword => 2
  | .word => 4
  | .doubleword => 8

/-- A cause of a translation fault, "drawn from a set the parameter's supplier names" (R45): here the
supplier numbers them (log 20). -/
abbrev Cause := Nat

/-- What `Translate` answers (R45). -/
inductive XlatResult where
  | ok (paddr : Nat)
  | fault (cause : Cause)
  deriving DecidableEq, Repr

/-- A range of 8-byte blocks of the virtual space and what `Translate` makes of it: block
`firstBlock + k`, k < `blocks`, maps to the 8 bytes at `target + 8 * k`, or faults. `kind` none stands
for both kinds. Translation acts on blocks because R45 requires it to (log 7). -/
structure XlatEntry where
  firstBlock : Nat
  blocks : Nat
  kind : Option AccessKind
  target : XlatResult
  deriving DecidableEq, Repr

/-- Virtual addresses `first` to `last` that `AddrLegal` rejects, for one size and kind or for all
(R44; log 6). -/
structure IllegalSpan where
  first : Word
  last : Word
  size : Option AccessSize
  kind : Option AccessKind
  deriving DecidableEq, Repr

/-- Physical addresses `base` to `base + size - 1`. -/
structure Region where
  base : Nat
  size : Nat
  deriving DecidableEq, Repr

/-- `PhysMem` (R29): the regions that exist, and the bytes in them that differ from
`Config.unlistedByte`, in rising order of address. -/
structure Memory where
  domain : List Region
  cells : List Host.Cell
  deriving DecidableEq, Repr

/-- The launch parameters of R5 and R190, constant during a run (R32; log 8). -/
structure Params where
  /-- The program: a finite map from addresses to instruction words (R25). -/
  text : List (Word × InstrWord)
  /-- Where the run ends (R193). -/
  endPc : Word
  /-- `UAL_HW`: the hardware supports non-aligned access (R47). -/
  ualHw : Bool
  /-- `UAL_ENV`: the environment allows non-aligned access (R47). -/
  ualEnv : Bool
  /-- What `AddrLegal` rejects beside accesses that wrap (R44). -/
  illegal : List IllegalSpan
  /-- `Translate`: the first entry that covers an address decides, and none is the identity (R45). -/
  xlat : List XlatEntry
  deriving DecidableEq, Repr

/-- The architectural state `(x, pc, PhysMem)` of R32, with the launch parameters. -/
structure State where
  /-- General registers 1 to 31: register i is entry i - 1. Register 0 has no storage (R20, R21). -/
  x : Vector Word 31
  /-- The address of the instruction that executes (R23). -/
  pc : Word
  /-- The physical memory (R29). -/
  mem : Memory
  /-- The launch parameters (R5). -/
  params : Params
  deriving DecidableEq, Repr

/-- The machine stops. R170's outcomes `Exception` and `Stuck`: the exceptions are terminal (R171), so
each is safe, the hardware having more completed runs than the model. -/
inductive Fault where
  /-- `AddressError(vaddr, kind)` at `pc`: `AddrLegal` is false. Raised by the 26 loads and stores (R172). Safe. -/
  | addressError (vaddr : Word) (kind : AccessKind) (pc : Word)
  /-- `Unaligned(vaddr, kind)` at `pc`: not naturally aligned, and not permitted. Raised by the 20 loads
  and stores of 2, 4 and 8 bytes (R173). Safe. -/
  | unaligned (vaddr : Word) (kind : AccessKind) (pc : Word)
  /-- `TranslationFault(c, vaddr, kind)` at `pc`: `Translate` faults for a byte of the access. Raised by the
  26 loads and stores (R174). Safe. -/
  | translationFault (cause : Cause) (vaddr : Word) (kind : AccessKind) (pc : Word)
  /-- `FetchMisaligned(pc)`: the pc is no multiple of 4. Raised by the fetch (R70). Safe. -/
  | fetchMisaligned (pc : Word)
  /-- `FetchOutsideText(pc)`: the pc is no key of the text. Raised by the fetch (R70). Safe. -/
  | fetchOutsideText (pc : Word)
  /-- `Stuck` at `pc`: the access reached a physical address outside `PhysMem`. No exception and no end of
  the run: there is no step. Raised by the 26 loads and stores (R50). Safe. -/
  | stuck (pc : Word)
  deriving DecidableEq, Repr

/-- The checks of R192 on a launch, but `NoWrapAtTop`, whose refusal has a name of its own (R170), and
`AddrLegalNoWrap`, which the form of `Params.illegal` makes true (log 6). -/
inductive LaunchCheck where
  /-- `TextAligned`. -/
  | textAligned
  /-- `TextContiguous`. -/
  | textContiguous
  /-- `TranslateBlockwise`; what the form of `Params.xlat` leaves of it is that physical addresses lie below 2^64. -/
  | translateBlockwise
  /-- The memory has its canonical form (the model's own check; log 26). -/
  | memoryCanonical
  deriving DecidableEq, Repr

/-- The spec gives the situation no meaning (R170's outcome `Refused`), or the run is over. -/
inductive Refusal where
  /-- No meaning yet; answered by an arm of `exec` alone. Safe. No arm answers it in this model. -/
  | notModelled (mnemonic : String)
  /-- `NotInScope(pc, w)`: the word fetched is none of the 28 instructions. Raised by a step (R80). Safe. -/
  | notInScope (pc : Word) (w : InstrWord)
  /-- `NonContiguousAccess`: the bytes of a permitted misaligned access are not physically consecutive.
  Raised by loads and stores (R51). Safe. -/
  | nonContiguousAccess
  /-- `StoreToText`: a store would write a byte of the program. Raised by the 10 stores (R58). Safe. -/
  | storeToText
  /-- `WrapAtTop`: the text contains the address 2^64 - 4. Raised by the launch and by a step (R24, R170;
  log 13). Safe. -/
  | wrapAtTop
  /-- The launch fails a check of R192. Raised by the launch. Safe. -/
  | illFormedLaunch (check : LaunchCheck)
  /-- `Ended`: `pc = end_pc`, the run is over and nothing is fetched (R193). Raised by a step; the one stop
  that is a normal end (log 10). Safe. -/
  | ended
  deriving DecidableEq, Repr

/-- `PhysMem` after reset: every physical address exists and nothing is listed (log 4). -/
def Memory.reset : Memory := { domain := [{ base := 0, size := Config.physTop }], cells := [] }

/-- The launch parameters after reset: no program is loaded, so the run is over before it begins (R192,
R193; log 9); the defaults of R44 and R45; alignment open (R47). -/
def Params.reset : Params :=
  { text := [], endPc := Config.resetPc, ualHw := Config.ualHw, ualEnv := Config.ualEnv,
    illegal := [], xlat := [] }

/-- The machine right after reset. R33 gives no value but that of register 0: every other value is
the log entry's that Config names (logs 2 to 9). -/
def State.reset : State :=
  { x := Vector.replicate 31 Config.resetGr, pc := Config.resetPc, mem := Memory.reset,
    params := Params.reset }

end Sys2Proof.Machine
end

