-- ==== Sys2Proof/Machine/Ops.lean ====
section
/-! DEFINITION. The named operations every meaning shares: registers, physical memory, the address check
and the translation, raising an exception, `Access`, and what a load, a store and a prefetch do. -/

namespace Sys2Proof.Machine

/-- What a part of a step answers: a value, a fault, or a refusal. -/
abbrev Answer (α : Type) := Host.Outcome α Fault Refusal

/-- Go on with the value, or stop as the first part did. -/
def andThen {α β : Type} (o : Answer α) (f : α → Answer β) : Answer β :=
  match o with
  | .next a => f a
  | .fault r => .fault r
  | .refused r => .refused r

/-! ### Registers and pc -/

/-- `x[r]`: register 0 reads 0 (R10, R21). -/
def State.gr (s : State) (r : RegNum) : Word :=
  if h : r = 0 then 0
  else s.x[r.toNat - 1]'(by have := r.isLt; have : r.toNat ≠ 0 := fun e => h (BitVec.eq_of_toNat_eq e); omega)

/-- `x[r] <- v`: a write to register 0 is discarded (R10, R21). -/
def State.setGr (s : State) (r : RegNum) (v : Word) : State :=
  if h : r = 0 then s
  else { s with x := s.x.set (r.toNat - 1) v (by have := r.isLt; have : r.toNat ≠ 0 := fun e => h (BitVec.eq_of_toNat_eq e); omega) }

/-- `pc <- pc + 4`, modulo 2^64 (R24). -/
def State.advance (s : State) : State := { s with pc := s.pc + 4 }

/-! ### Physical memory -/

/-- Whether a region holds an address. -/
def Region.has (g : Region) (a : Nat) : Bool := g.base ≤ a && a < g.base + g.size

/-- Whether an address is in the domain of `PhysMem` (R29). -/
def Memory.has (m : Memory) (a : Nat) : Bool := m.domain.any fun g => g.has a

/-- The byte listed at an address, or what an unlisted byte reads as. -/
def cellAt : List Host.Cell → Nat → Byte
  | [], _ => Config.unlistedByte
  | c :: rest, a => if c.1 = a then c.2 else cellAt rest a

/-- The cells with the byte at an address replaced; a byte that an unlisted address reads as is not
listed. -/
def setCell : List Host.Cell → Nat → Byte → List Host.Cell
  | [], a, b => if b = Config.unlistedByte then [] else [(a, b)]
  | c :: rest, a, b =>
    if a < c.1 then (if b = Config.unlistedByte then c :: rest else (a, b) :: c :: rest)
    else if a = c.1 then (if b = Config.unlistedByte then rest else (a, b) :: rest)
    else c :: setCell rest a b

/-- `PhysMem[a]`, or none outside the domain (R29). -/
def Memory.read? (m : Memory) (a : Nat) : Option Byte :=
  if m.has a then some (cellAt m.cells a) else none

/-- `PhysMem[a] <- b`, or none outside the domain, which never changes (R29). -/
def Memory.write? (m : Memory) (a : Nat) (b : Byte) : Option Memory :=
  if m.has a then some { m with cells := setCell m.cells a b } else none

/-- `MemRead(paddr, n)`: the byte at the lowest address is the least significant (R41, R48); none when
some byte is outside the domain (R50). -/
def memRead (m : Memory) (p : Nat) : (n : Nat) → Option (BitVec (8 * n))
  | 0 => some 0#0
  | n + 1 =>
    match m.read? p, memRead m (p + 1) n with
    | some lo, some hi => some (hi ++ lo)
    | _, _ => none

/-- `MemWrite(paddr, n, v)`: byte i of v goes to `paddr + i` (R41, R49); none, and nothing is written,
when some byte is outside the domain (R50). -/
def memWrite (m : Memory) (p : Nat) : (n : Nat) → BitVec (8 * n) → Option Memory
  | 0, _ => some m
  | n + 1, v =>
    match m.write? p (v.extractLsb' 0 8) with
    | some m' => memWrite m' (p + 1) n (v.extractLsb' 8 (8 * n))
    | none => none

/-- The regions lie above `from_`, none is empty, a gap stands between neighbours, and all lie in the
physical space. -/
def regionsFrom (from_ : Nat) : List Region → Bool
  | [] => true
  | g :: rest =>
    from_ ≤ g.base && 0 < g.size && g.base + g.size ≤ Config.physTop &&
      regionsFrom (g.base + g.size + 1) rest

/-- The addresses rise strictly from `from_` on, and no cell holds what an unlisted byte reads as. -/
def cellsFrom (from_ : Nat) : List Host.Cell → Bool
  | [] => true
  | c :: rest => from_ ≤ c.1 && c.2 != Config.unlistedByte && cellsFrom (c.1 + 1) rest

/-- The canonical form: equal memories are equal data. -/
def Memory.wf (m : Memory) : Bool :=
  regionsFrom 0 m.domain && cellsFrom 0 m.cells && m.cells.all fun c => m.has c.1

/-! ### Address check, translation, text -/

/-- Whether a span covers an access. -/
def IllegalSpan.covers (g : IllegalSpan) (v : Word) (n : AccessSize) (k : AccessKind) : Bool :=
  g.first ≤ v && v ≤ g.last && (g.size.isNone || g.size == some n) &&
    (g.kind.isNone || g.kind == some k)

/-- `AddrLegal(vaddr, n, kind)`: the bytes do not wrap, and no span rejects the access (R44). -/
def addrLegal (illegal : List IllegalSpan) (v : Word) (n : AccessSize) (k : AccessKind) : Bool :=
  v.toNat + n.bytes ≤ 2 ^ 64 && !illegal.any fun g => g.covers v n k

/-- Whether an entry covers a block for a kind. -/
def XlatEntry.covers (e : XlatEntry) (block : Nat) (k : AccessKind) : Bool :=
  e.firstBlock ≤ block && block < e.firstBlock + e.blocks && (e.kind.isNone || e.kind == some k)

/-- `Translate(vaddr, kind)`: the first entry that covers the address's 8-byte block, or the identity
(R45). -/
def translateAddr (xlat : List XlatEntry) (v : Word) (k : AccessKind) : XlatResult :=
  match xlat.find? fun e => e.covers (v.toNat / 8) k with
  | none => .ok v.toNat
  | some e =>
    match e.target with
    | .fault c => .fault c
    | .ok p => .ok (p + 8 * (v.toNat / 8 - e.firstBlock) + v.toNat % 8)

/-- The n addresses of an access, lowest first. -/
def byteAddrs (v : Word) (n : Nat) : List Word := (List.range n).map fun i => v + BitVec.ofNat 64 i

/-- Whether one of n physical bytes at `p` is a byte of the text: equals `Translate(a + j, Load)` for a key
a and j in 0..3 (R58). -/
def hitsText (ps : Params) (p n : Nat) : Bool :=
  ps.text.any fun c => (byteAddrs c.1 4).any fun a =>
    match translateAddr ps.xlat a .load with
    | .ok q => p ≤ q && q < p + n
    | .fault _ => false

/-! ### Exceptions -/

/-- `raise E(info)`: the instruction and the run end at once, with the state as it was before the
instruction; the exception records the pc of the instruction beside its own information. No handler is
entered and nothing is saved, so there is no return either (R171, R179, R181; log 11). -/
def raise {α : Type} (s : State) (e : Word → Fault) : Answer α := .fault (e s.pc)

/-- The first fault that translating some addresses meets, in their order (R46 step 3). -/
def firstFault (ps : Params) (k : AccessKind) : List Word → Option Cause
  | [] => none
  | a :: rest =>
    match translateAddr ps.xlat a k with
    | .fault c => some c
    | .ok _ => firstFault ps k rest

/-- Whether some addresses translate to consecutive physical addresses from `p` on (R46 step 4). -/
def contiguous (ps : Params) (k : AccessKind) (p : Nat) : List Word → Bool
  | [] => true
  | a :: rest => translateAddr ps.xlat a k == .ok p && contiguous ps k (p + 1) rest

/-- `Access(vaddr, n, kind)`: the checks in R46's order, then the physical address of the first byte. -/
def access (s : State) (v : Word) (n : AccessSize) (k : AccessKind) : Answer Nat :=
  if !addrLegal s.params.illegal v n k then raise s (.addressError v k)
  else if v.toNat % n.bytes ≠ 0 && !(s.params.ualHw && s.params.ualEnv) then raise s (.unaligned v k)
  else
    match firstFault s.params k (byteAddrs v n.bytes) with
    | some c => raise s (.translationFault c v k)
    | none =>
      match translateAddr s.params.xlat v k with
      | .fault c => raise s (.translationFault c v k)
      | .ok p =>
        if contiguous s.params k p (byteAddrs v n.bytes) then .next p
        else .refused .nonContiguousAccess

/-! ### Loads, stores, prefetches -/

/-- A load of n bytes at `v` into `rd`: access, read, extend, write the register, advance (R40, R52). -/
def load (n : AccessSize) (extend : BitVec (8 * n.bytes) → Word) (rd : RegNum) (v : Word) (s : State) :
    Answer State :=
  andThen (access s v n .load) fun p =>
    match memRead s.mem p n.bytes with
    | none => .fault (.stuck s.pc)
    | some b => .next (s.setGr rd (extend b)).advance

/-- A store of the low n bytes of `rd` at `v`: access, refuse the text, write, advance (R40, R49, R52). -/
def store (n : AccessSize) (rd : RegNum) (v : Word) (s : State) : Answer State :=
  andThen (access s v n .store) fun p =>
    if hitsText s.params p n.bytes then .refused .storeToText
    else
      match memWrite s.mem p n.bytes ((s.gr rd).setWidth (8 * n.bytes)) with
      | none => .fault (.stuck s.pc)
      | some m => .next (State.advance { s with mem := m })

/-- What a prefetch is for (R152, R164). -/
inductive PrefetchType where
  | load
  | store
  deriving DecidableEq, Repr

/-- The cache a prefetch fills (R152, R164, C14). -/
inductive CacheLevel where
  | level1
  | level1Data
  | level3
  deriving DecidableEq, Repr

/-- What a prefetch asks of the caches. -/
inductive PrefetchRequest where
  /-- PRELD: the cache line of one address (R150). -/
  | line (type : PrefetchType) (level : CacheLevel) (vaddr : Word)
  /-- PRELDX: `blocks` blocks of `blockBytes` bytes, the first at `base`, `stride` bytes between the starts of
  neighbours (R161). How direction and stride combine is not said (R162), so both are kept. -/
  | blocks (type : PrefetchType) (level : CacheLevel) (base : Word) (descending : Bool)
      (blockBytes blocks : Nat) (stride : Int)
  deriving DecidableEq, Repr

/-- A prefetch, or none where the spec says NOP: the caches are not state and nothing is raised, so
whatever is asked, only the pc advances (R28, R151, R163; log 16). -/
def prefetch (_request : Option PrefetchRequest) (s : State) : Answer State := .next s.advance

end Sys2Proof.Machine
end

