-- ==== Sys2Proof/Machine/Operands.lean ====
section
/-! DEFINITION. Operand forms: the extensions of R8, the three addressing modes of R168, and the hints and
parameter word of the prefetches. -/

namespace Sys2Proof.Machine

/-- `sext_64(v)` (R8). -/
def sext64 {m : Nat} (v : BitVec m) : Word := v.signExtend 64

/-- `zext_64(v)` (R8). -/
def zext64 {m : Nat} (v : BitVec m) : Word := v.setWidth 64

/-- A loaded doubleword already fills the register: no extension (R52, R103). -/
def whole (v : BitVec 64) : Word := v

/-- `x[rj] + sext_64(si12)`, modulo 2^64 (R43, R111). -/
def vaddr12 (s : State) (rj : RegNum) (si12 : BitVec 12) : Word := s.gr rj + sext64 si12

/-- `x[rj] + x[rk]`, modulo 2^64 (R43, R131). -/
def vaddrX (s : State) (rj rk : RegNum) : Word := s.gr rj + s.gr rk

/-- `x[rj] + sext_64({si14, 2'b0})`, modulo 2^64: shift first, then extend (R43, R144). -/
def vaddr14 (s : State) (rj : RegNum) (si14 : BitVec 14) : Word := s.gr rj + sext64 (si14 ++ 0#2)

/-- The hints that PRELD defines: 0 and 8 (R152). Every other is a NOP. -/
def preldHint (hint : BitVec 5) : Option (PrefetchType × CacheLevel) :=
  if hint = 0 then some (.load, .level1)
  else if hint = 8 then some (.store, .level1)
  else none

/-- The hints that PRELDX defines: 0, 2 and 8 (R164). Every other is a NOP. -/
def preldxHint (hint : BitVec 5) : Option (PrefetchType × CacheLevel) :=
  if hint = 0 then some (.load, .level1Data)
  else if hint = 2 then some (.load, .level3)
  else if hint = 8 then some (.store, .level1Data)
  else none

/-- What PRELD asks for at an address; none where the hint is undefined or the address is not cached
(R151). -/
def preldRequest (hint : BitVec 5) (v : Word) : Option PrefetchRequest :=
  match preldHint hint with
  | some (t, l) => if Config.cacheAttr v then some (.line t l v) else none
  | none => none

/-- The fields of PRELDX's parameter word (R161). Bits 19:17, 31:26, 43:40 and 63:60 are not described
and not read. -/
structure PreldxFields where
  /-- Bits 15:0, a signed byte offset. -/
  offset : BitVec 16
  /-- Bit 16: addresses descend. -/
  descending : Bool
  /-- Bits 25:20, F, the block length in units of 16 bytes, in one of two readings (R162). -/
  blockSize : BitVec 6
  /-- Bits 39:32, N, one less than the number of blocks. -/
  blockNumLess1 : BitVec 8
  /-- Bits 59:44, the signed distance in bytes between neighbouring blocks. -/
  stride : BitVec 16
  deriving DecidableEq, Repr

/-- The fields of a parameter word (R161). -/
def preldxFields (w : Word) : PreldxFields :=
  { offset := w.extractLsb' 0 16, descending := w.getLsbD 16, blockSize := w.extractLsb' 20 6,
    blockNumLess1 := w.extractLsb' 32 8, stride := w.extractLsb' 44 16 }

/-- `base = x[rj] + sext_64(x[rk][15:0])`, modulo 2^64 (R160, R161). -/
def preldxBase (s : State) (rj rk : RegNum) : Word :=
  s.gr rj + sext64 (preldxFields (s.gr rk)).offset

/-- What PRELDX asks for; none where the hint is undefined. Which address the cache attribute is tested
on is not said (R162), and an uncached one is a NOP too, so the test is left out. -/
def preldxRequest (hint : BitVec 5) (base : Word) (f : PreldxFields) : Option PrefetchRequest :=
  (preldxHint hint).map fun tl =>
    .blocks tl.1 tl.2 base f.descending (Config.preldxBlockBytes f.blockSize)
      (f.blockNumLess1.toNat + 1) f.stride.toInt

end Sys2Proof.Machine
end

