-- ==== Sys2Proof/Machine/Flags.lean ====
section
/-! DEFINITION. There are no flags, condition codes or predicates: no instruction reads or writes one, and
the address sum records no carry and no overflow (R26). So this file defines nothing. -/
end

