-- ==== Sys2Proof/Machine/LdSt.lean ====
section
/-! DEFINITION. The loads and stores with base and 12-bit displacement (R100 to R112). -/

namespace Sys2Proof.Machine

/-- `LD.B rd, rj, si12`: load one byte and sign-extend it (R100). -/
def execLdB (rd rj : RegNum) (si12 : BitVec 12) (s : State) : Answer State :=
  load .byte sext64 rd (vaddr12 s rj si12) s

/-- `LD.H rd, rj, si12`: load one halfword and sign-extend it (R101). -/
def execLdH (rd rj : RegNum) (si12 : BitVec 12) (s : State) : Answer State :=
  load .halfword sext64 rd (vaddr12 s rj si12) s

/-- `LD.W rd, rj, si12`: load one word and sign-extend it (R102). -/
def execLdW (rd rj : RegNum) (si12 : BitVec 12) (s : State) : Answer State :=
  load .word sext64 rd (vaddr12 s rj si12) s

/-- `LD.D rd, rj, si12`: load one doubleword (R103). -/
def execLdD (rd rj : RegNum) (si12 : BitVec 12) (s : State) : Answer State :=
  load .doubleword whole rd (vaddr12 s rj si12) s

/-- `LD.BU rd, rj, si12`: load one byte and zero-extend it (R104). -/
def execLdBu (rd rj : RegNum) (si12 : BitVec 12) (s : State) : Answer State :=
  load .byte zext64 rd (vaddr12 s rj si12) s

/-- `LD.HU rd, rj, si12`: load one halfword and zero-extend it (R105). -/
def execLdHu (rd rj : RegNum) (si12 : BitVec 12) (s : State) : Answer State :=
  load .halfword zext64 rd (vaddr12 s rj si12) s

/-- `LD.WU rd, rj, si12`: load one word and zero-extend it (R106). -/
def execLdWu (rd rj : RegNum) (si12 : BitVec 12) (s : State) : Answer State :=
  load .word zext64 rd (vaddr12 s rj si12) s

/-- `ST.B rd, rj, si12`: store the low byte of `rd` (R107). -/
def execStB (rd rj : RegNum) (si12 : BitVec 12) (s : State) : Answer State :=
  store .byte rd (vaddr12 s rj si12) s

/-- `ST.H rd, rj, si12`: store the low halfword of `rd` (R108). -/
def execStH (rd rj : RegNum) (si12 : BitVec 12) (s : State) : Answer State :=
  store .halfword rd (vaddr12 s rj si12) s

/-- `ST.W rd, rj, si12`: store the low word of `rd` (R109). -/
def execStW (rd rj : RegNum) (si12 : BitVec 12) (s : State) : Answer State :=
  store .word rd (vaddr12 s rj si12) s

/-- `ST.D rd, rj, si12`: store the low doubleword of `rd` (R110). -/
def execStD (rd rj : RegNum) (si12 : BitVec 12) (s : State) : Answer State :=
  store .doubleword rd (vaddr12 s rj si12) s

end Sys2Proof.Machine
end

