-- ==== Sys2Proof/Machine/LdptrStptr.lean ====
section
/-! DEFINITION. The loads and stores with base and 14-bit displacement times 4 (R140 to R145). -/

namespace Sys2Proof.Machine

/-- `LDPTR.W rd, rj, si14`: load one word and sign-extend it (R140). -/
def execLdptrW (rd rj : RegNum) (si14 : BitVec 14) (s : State) : Answer State :=
  load .word sext64 rd (vaddr14 s rj si14) s

/-- `LDPTR.D rd, rj, si14`: load one doubleword (R141). -/
def execLdptrD (rd rj : RegNum) (si14 : BitVec 14) (s : State) : Answer State :=
  load .doubleword whole rd (vaddr14 s rj si14) s

/-- `STPTR.W rd, rj, si14`: store the low word of `rd` (R142). -/
def execStptrW (rd rj : RegNum) (si14 : BitVec 14) (s : State) : Answer State :=
  store .word rd (vaddr14 s rj si14) s

/-- `STPTR.D rd, rj, si14`: store the low doubleword of `rd` (R143). -/
def execStptrD (rd rj : RegNum) (si14 : BitVec 14) (s : State) : Answer State :=
  store .doubleword rd (vaddr14 s rj si14) s

end Sys2Proof.Machine
end

