-- ==== Sys2Proof/Machine/LdxStx.lean ====
section
/-! DEFINITION. The loads and stores with base and index register (R120 to R132). -/

namespace Sys2Proof.Machine

/-- `LDX.B rd, rj, rk`: load one byte and sign-extend it (R120). -/
def execLdxB (rd rj rk : RegNum) (s : State) : Answer State :=
  load .byte sext64 rd (vaddrX s rj rk) s

/-- `LDX.H rd, rj, rk`: load one halfword and sign-extend it (R121). -/
def execLdxH (rd rj rk : RegNum) (s : State) : Answer State :=
  load .halfword sext64 rd (vaddrX s rj rk) s

/-- `LDX.W rd, rj, rk`: load one word and sign-extend it (R122). -/
def execLdxW (rd rj rk : RegNum) (s : State) : Answer State :=
  load .word sext64 rd (vaddrX s rj rk) s

/-- `LDX.D rd, rj, rk`: load one doubleword (R123). -/
def execLdxD (rd rj rk : RegNum) (s : State) : Answer State :=
  load .doubleword whole rd (vaddrX s rj rk) s

/-- `LDX.BU rd, rj, rk`: load one byte and zero-extend it (R124). -/
def execLdxBu (rd rj rk : RegNum) (s : State) : Answer State :=
  load .byte zext64 rd (vaddrX s rj rk) s

/-- `LDX.HU rd, rj, rk`: load one halfword and zero-extend it (R125). -/
def execLdxHu (rd rj rk : RegNum) (s : State) : Answer State :=
  load .halfword zext64 rd (vaddrX s rj rk) s

/-- `LDX.WU rd, rj, rk`: load one word and zero-extend it (R126). -/
def execLdxWu (rd rj rk : RegNum) (s : State) : Answer State :=
  load .word zext64 rd (vaddrX s rj rk) s

/-- `STX.B rd, rj, rk`: store the low byte of `rd` (R127). -/
def execStxB (rd rj rk : RegNum) (s : State) : Answer State :=
  store .byte rd (vaddrX s rj rk) s

/-- `STX.H rd, rj, rk`: store the low halfword of `rd` (R128). -/
def execStxH (rd rj rk : RegNum) (s : State) : Answer State :=
  store .halfword rd (vaddrX s rj rk) s

/-- `STX.W rd, rj, rk`: store the low word of `rd` (R129). -/
def execStxW (rd rj rk : RegNum) (s : State) : Answer State :=
  store .word rd (vaddrX s rj rk) s

/-- `STX.D rd, rj, rk`: store the low doubleword of `rd` (R130). -/
def execStxD (rd rj rk : RegNum) (s : State) : Answer State :=
  store .doubleword rd (vaddrX s rj rk) s

end Sys2Proof.Machine
end

