-- ==== Sys2Proof/Machine/Prefetch.lean ====
section
/-! DEFINITION. The two prefetches (R150 to R152, R160 to R164). -/

namespace Sys2Proof.Machine

/-- `PRELD hint, rj, si12`: prefetch the cache line of an address; only the pc changes, and nothing is
raised, for every hint and every address (R150, R151). -/
def execPreld (hint : BitVec 5) (rj : RegNum) (si12 : BitVec 12) (s : State) : Answer State :=
  prefetch (preldRequest hint (vaddr12 s rj si12)) s

/-- `PRELDX hint, rj, rk`: prefetch the blocks that the parameter word in `rk` describes; only the pc
changes, and nothing is raised, for every hint, base and parameter word (R160, R163). -/
def execPreldx (hint : BitVec 5) (rj rk : RegNum) (s : State) : Answer State :=
  prefetch (preldxRequest hint (preldxBase s rj rk) (preldxFields (s.gr rk))) s

end Sys2Proof.Machine
end

