-- ==== Sys2Proof/Machine/Dispatch.lean ====
section
/-! DEFINITION. What an instruction does: one direct call of its meaning for each row of
spec/opcode_table.json, in the table's order (R169). -/

namespace Sys2Proof.Machine

/-- The meaning of an instruction. -/
def exec (i : Instr) (s : State) : Host.Outcome State Fault Refusal :=
  match i with
  | .ldB rd rj si12 => Sys2Proof.Machine.execLdB rd rj si12 s
  | .ldH rd rj si12 => Sys2Proof.Machine.execLdH rd rj si12 s
  | .ldW rd rj si12 => Sys2Proof.Machine.execLdW rd rj si12 s
  | .ldD rd rj si12 => Sys2Proof.Machine.execLdD rd rj si12 s
  | .ldBu rd rj si12 => Sys2Proof.Machine.execLdBu rd rj si12 s
  | .ldHu rd rj si12 => Sys2Proof.Machine.execLdHu rd rj si12 s
  | .ldWu rd rj si12 => Sys2Proof.Machine.execLdWu rd rj si12 s
  | .stB rd rj si12 => Sys2Proof.Machine.execStB rd rj si12 s
  | .stH rd rj si12 => Sys2Proof.Machine.execStH rd rj si12 s
  | .stW rd rj si12 => Sys2Proof.Machine.execStW rd rj si12 s
  | .stD rd rj si12 => Sys2Proof.Machine.execStD rd rj si12 s
  | .ldxB rd rj rk => Sys2Proof.Machine.execLdxB rd rj rk s
  | .ldxH rd rj rk => Sys2Proof.Machine.execLdxH rd rj rk s
  | .ldxW rd rj rk => Sys2Proof.Machine.execLdxW rd rj rk s
  | .ldxD rd rj rk => Sys2Proof.Machine.execLdxD rd rj rk s
  | .ldxBu rd rj rk => Sys2Proof.Machine.execLdxBu rd rj rk s
  | .ldxHu rd rj rk => Sys2Proof.Machine.execLdxHu rd rj rk s
  | .ldxWu rd rj rk => Sys2Proof.Machine.execLdxWu rd rj rk s
  | .stxB rd rj rk => Sys2Proof.Machine.execStxB rd rj rk s
  | .stxH rd rj rk => Sys2Proof.Machine.execStxH rd rj rk s
  | .stxW rd rj rk => Sys2Proof.Machine.execStxW rd rj rk s
  | .stxD rd rj rk => Sys2Proof.Machine.execStxD rd rj rk s
  | .ldptrW rd rj si14 => Sys2Proof.Machine.execLdptrW rd rj si14 s
  | .ldptrD rd rj si14 => Sys2Proof.Machine.execLdptrD rd rj si14 s
  | .stptrW rd rj si14 => Sys2Proof.Machine.execStptrW rd rj si14 s
  | .stptrD rd rj si14 => Sys2Proof.Machine.execStptrD rd rj si14 s
  | .preld hint rj si12 => Sys2Proof.Machine.execPreld hint rj si12 s
  | .preldx hint rj rk => Sys2Proof.Machine.execPreldx hint rj rk s

end Sys2Proof.Machine
end

