-- ==== Sys2Proof/Machine/Launch.lean ====
section
/-! DEFINITION. The launch (R190, R192) and the fetch (R70). A launch record is an initial `State`: `GR0` is
`x`, `pc0` is `pc`, `PhysMem0` is `mem`, and the parameters are `params`. -/

namespace Sys2Proof.Machine

/-- The one instruction address whose successor wraps: 2^64 - 4 (R24). -/
def topSlot : Word := BitVec.ofNat 64 (2 ^ 64 - 4)

/-- Whether the text contains the address 2^64 - 4 (R24, R170's `WrapAtTop`). -/
def textWraps (ps : Params) : Bool := ps.text.any fun c => c.1 == topSlot

/-- `TextAligned`: every key of the text, `pc0` and `end_pc` are multiples of 4 (R192). -/
def textAligned (s : State) : Bool :=
  s.params.text.all (fun c => c.1.toNat % 4 == 0) && s.pc.toNat % 4 == 0 &&
    s.params.endPc.toNat % 4 == 0

/-- The first listed key of the text, or `end_pc` where the text is empty: R192's `base` where the text is
contiguous. DESIGN CHOICE (log 27): R192 gives no base for a text that is not, and the first listed key is taken
there too, so such a text can be refused as `WrapAtTop`. -/
def textBase (ps : Params) : Word :=
  match ps.text with
  | [] => ps.endPc
  | c :: _ => c.1

/-- Whether the keys are `a, a+4, a+8, ..` in order. -/
def keysRiseFrom (a : Word) : List (Word × InstrWord) → Bool
  | [] => true
  | c :: rest => c.1 == a && keysRiseFrom (a + 4) rest

/-- `base + 4 * i`, modulo 2^64. -/
def slot (base : Word) (i : Nat) : Word := base + BitVec.ofNat 64 (4 * i)

/-- `TextContiguous`: the keys are `base, base+4, .., base+4(k-1)`, `end_pc = base + 4k`, and `pc0` is one of
these k + 1 addresses (R192). DESIGN CHOICE (log 27): the list that holds the text must have them in that order. -/
def textContiguous (s : State) : Bool :=
  let base := textBase s.params
  let k := s.params.text.length
  keysRiseFrom base s.params.text && s.params.endPc == slot base k &&
    (List.range (k + 1)).any fun i => s.pc == slot base i

/-- `NoWrapAtTop`: `base + 4k < 2^64` (R192). The launch tests it before `TextContiguous`, so the base of a text
that is not contiguous matters here; it is the model's choice (logs 14, 27). -/
def noWrapAtTop (ps : Params) : Bool := (textBase ps).toNat + 4 * ps.text.length < 2 ^ 64

/-- `TranslateBlockwise`: the form of an entry acts on whole blocks; that physical addresses lie below
2^64 is left to check (R45, R192). -/
def translateBlockwise (xlat : List XlatEntry) : Bool :=
  xlat.all fun e =>
    match e.target with
    | .ok p => p + 8 * e.blocks ≤ Config.physTop
    | .fault _ => true

/-- A launch that fails a check is refused before the first step; else its record is the initial state
(R190, R192). -/
def launch (s : State) : Answer State :=
  if !textAligned s then .refused (.illFormedLaunch .textAligned)
  else if !noWrapAtTop s.params then .refused .wrapAtTop
  else if !textContiguous s then .refused (.illFormedLaunch .textContiguous)
  else if !translateBlockwise s.params.xlat then .refused (.illFormedLaunch .translateBlockwise)
  else if !s.mem.wf then .refused (.illFormedLaunch .memoryCanonical)
  else .next s

/-- Fetch: the word at the pc, from the text and never from `PhysMem`, with no address check and no
translation (R58, R70). A text that wraps and the end of the run come first (R24, R193; log 13). -/
def fetch (s : State) : Answer InstrWord :=
  if textWraps s.params then .refused .wrapAtTop
  else if s.pc = s.params.endPc then .refused .ended
  else if s.pc.toNat % 4 ≠ 0 then .fault (.fetchMisaligned s.pc)
  else
    match s.params.text.lookup s.pc with
    | none => .fault (.fetchOutsideText s.pc)
    | some w => .next w

end Sys2Proof.Machine
end

