-- ==== Sys2Proof/Machine/Step.lean ====
section
/-! DEFINITION. One step: fetch, decode, execute (R32), and how the host places an instruction. -/

namespace Sys2Proof.Machine

/-- One step of the machine (R32, R70, R76, R80, R170). -/
def step (s : State) : Host.Outcome State Fault Refusal :=
  andThen (fetch s) fun w =>
    match decode w with
    | .ok i => exec i s
    | .error _ => .refused (.notInScope s.pc w)

/-- The program of one instruction at the pc, and the end of the run right after it: what a step of this
machine fetches (R25, R192; log 9). -/
def State.withFetchWord (s : State) (nbits w : Nat) : State :=
  { s with params := { s.params with text := [(s.pc, tableWord nbits w)], endPc := s.pc + 4 } }

end Sys2Proof.Machine
end

