-- ==== Sys2Proof/Safety.lean ====
section
/-! DEFINITION. The terms in which claims speak: what an instruction accesses and which registers it uses, when
an access reaches memory, what a completed load or store leaves, admitted states, and how a run ends. -/

namespace Sys2Proof.Machine

/-! ### What an instruction touches -/

/-- The one memory access of an instruction: where, how wide, which way (R40). -/
structure MemAccess where
  vaddr : Word
  size : AccessSize
  kind : AccessKind
  deriving DecidableEq, Repr

/-- The access of each instruction: the address of R168, the width of R52; none for the prefetches. -/
def memAccess? (i : Instr) (s : State) : Option MemAccess :=
  match i with
  | .ldB _ rj d => some ⟨vaddr12 s rj d, .byte, .load⟩
  | .ldH _ rj d => some ⟨vaddr12 s rj d, .halfword, .load⟩
  | .ldW _ rj d => some ⟨vaddr12 s rj d, .word, .load⟩
  | .ldD _ rj d => some ⟨vaddr12 s rj d, .doubleword, .load⟩
  | .ldBu _ rj d => some ⟨vaddr12 s rj d, .byte, .load⟩
  | .ldHu _ rj d => some ⟨vaddr12 s rj d, .halfword, .load⟩
  | .ldWu _ rj d => some ⟨vaddr12 s rj d, .word, .load⟩
  | .stB _ rj d => some ⟨vaddr12 s rj d, .byte, .store⟩
  | .stH _ rj d => some ⟨vaddr12 s rj d, .halfword, .store⟩
  | .stW _ rj d => some ⟨vaddr12 s rj d, .word, .store⟩
  | .stD _ rj d => some ⟨vaddr12 s rj d, .doubleword, .store⟩
  | .ldxB _ rj rk => some ⟨vaddrX s rj rk, .byte, .load⟩
  | .ldxH _ rj rk => some ⟨vaddrX s rj rk, .halfword, .load⟩
  | .ldxW _ rj rk => some ⟨vaddrX s rj rk, .word, .load⟩
  | .ldxD _ rj rk => some ⟨vaddrX s rj rk, .doubleword, .load⟩
  | .ldxBu _ rj rk => some ⟨vaddrX s rj rk, .byte, .load⟩
  | .ldxHu _ rj rk => some ⟨vaddrX s rj rk, .halfword, .load⟩
  | .ldxWu _ rj rk => some ⟨vaddrX s rj rk, .word, .load⟩
  | .stxB _ rj rk => some ⟨vaddrX s rj rk, .byte, .store⟩
  | .stxH _ rj rk => some ⟨vaddrX s rj rk, .halfword, .store⟩
  | .stxW _ rj rk => some ⟨vaddrX s rj rk, .word, .store⟩
  | .stxD _ rj rk => some ⟨vaddrX s rj rk, .doubleword, .store⟩
  | .ldptrW _ rj d => some ⟨vaddr14 s rj d, .word, .load⟩
  | .ldptrD _ rj d => some ⟨vaddr14 s rj d, .doubleword, .load⟩
  | .stptrW _ rj d => some ⟨vaddr14 s rj d, .word, .store⟩
  | .stptrD _ rj d => some ⟨vaddr14 s rj d, .doubleword, .store⟩
  | .preld _ _ _ => none
  | .preldx _ _ _ => none

/-- The register an instruction writes: a load's `rd`, and no other (R22). -/
def destReg? (i : Instr) : Option RegNum :=
  match i with
  | .ldB rd _ _ | .ldH rd _ _ | .ldW rd _ _ | .ldD rd _ _ => some rd
  | .ldBu rd _ _ | .ldHu rd _ _ | .ldWu rd _ _ => some rd
  | .ldxB rd _ _ | .ldxH rd _ _ | .ldxW rd _ _ | .ldxD rd _ _ => some rd
  | .ldxBu rd _ _ | .ldxHu rd _ _ | .ldxWu rd _ _ => some rd
  | .ldptrW rd _ _ | .ldptrD rd _ _ => some rd
  | .stB _ _ _ | .stH _ _ _ | .stW _ _ _ | .stD _ _ _ => none
  | .stxB _ _ _ | .stxH _ _ _ | .stxW _ _ _ | .stxD _ _ _ => none
  | .stptrW _ _ _ | .stptrD _ _ _ | .preld _ _ _ | .preldx _ _ _ => none

/-- The registers an instruction reads: the base, the index where it has one, a store's `rd` (R22). -/
def sourceRegs (i : Instr) : List RegNum :=
  match i with
  | .ldB _ rj _ | .ldH _ rj _ | .ldW _ rj _ | .ldD _ rj _ => [rj]
  | .ldBu _ rj _ | .ldHu _ rj _ | .ldWu _ rj _ => [rj]
  | .ldptrW _ rj _ | .ldptrD _ rj _ | .preld _ rj _ => [rj]
  | .ldxB _ rj rk | .ldxH _ rj rk | .ldxW _ rj rk | .ldxD _ rj rk => [rj, rk]
  | .ldxBu _ rj rk | .ldxHu _ rj rk | .ldxWu _ rj rk | .preldx _ rj rk => [rj, rk]
  | .stB rd rj _ | .stH rd rj _ | .stW rd rj _ | .stD rd rj _ => [rj, rd]
  | .stptrW rd rj _ | .stptrD rd rj _ => [rj, rd]
  | .stxB rd rj rk | .stxH rd rj rk | .stxW rd rj rk | .stxD rd rj rk => [rj, rk, rd]

/-! ### Accesses -/

/-- The alignment rule of R47: naturally aligned, or non-aligned access is supported and allowed. -/
abbrev AlignedOrAllowed (s : State) (v : Word) (n : AccessSize) : Prop :=
  v.toNat % n.bytes = 0 ∨ s.params.ualHw = true ∧ s.params.ualEnv = true

/-- The access is legal, aligned or allowed, and byte i of it translates to `p + i` (R46). -/
abbrev Reaches (s : State) (v : Word) (n : AccessSize) (k : AccessKind) (p : Nat) : Prop :=
  addrLegal s.params.illegal v n k = true ∧ AlignedOrAllowed s v n ∧
    ∀ i, i < n.bytes → translateAddr s.params.xlat (v + BitVec.ofNat 64 i) k = .ok (p + i)

/-- The n bytes from `p` on exist and are `b 0`, `b 1`, .. (R29, R48). -/
abbrev Holds (m : Memory) (p n : Nat) (b : Nat → Byte) : Prop :=
  ∀ i, i < n → m.read? (p + i) = some (b i)

/-- A load into `rd` completed with the value `v`: `rd` holds it (register 0 still reads 0), the pc
advanced, and nothing else changed (R21, R22, R24). -/
def LoadDone (s : State) (rd : RegNum) (v : Word) (o : Answer State) : Prop :=
  ∃ t, o = .next t ∧ t.gr rd = (if rd = 0 then 0 else v) ∧ (∀ r, r ≠ rd → t.gr r = s.gr r) ∧
    t.pc = s.pc + 4 ∧ t.mem = s.mem ∧ t.params = s.params

/-- A store of the low n bytes of `v` at `p` completed: byte i of `v` stands at `p + i`, every other
byte reads as before, the domain is the same, the pc advanced, and nothing else changed (R22, R24, R49). -/
def StoreDone (s : State) (p n : Nat) (v : Word) (o : Answer State) : Prop :=
  ∃ t, o = .next t ∧ (∀ i, i < n → t.mem.read? (p + i) = some (v.extractLsb' (8 * i) 8)) ∧
    (∀ a, a < p ∨ p + n ≤ a → t.mem.read? a = s.mem.read? a) ∧ t.mem.domain = s.mem.domain ∧
    (∀ r, t.gr r = s.gr r) ∧ t.pc = s.pc + 4 ∧ t.params = s.params

/-! ### States and runs -/

/-- The state passes every check of R192: as a launch record it is accepted. -/
def admitted (s : State) : Bool :=
  textAligned s && noWrapAtTop s.params && textContiguous s && translateBlockwise s.params.xlat &&
    s.mem.wf

/-- The five outcomes of R170. -/
inductive StepOutcome where
  | completed
  | exception
  | refused
  | stuck
  | ended
  deriving DecidableEq, Repr

/-- Which of R170's outcomes an answer of `step` is. -/
def stepOutcome (o : Answer State) : StepOutcome :=
  match o with
  | .next _ => .completed
  | .fault (.stuck _) => .stuck
  | .fault _ => .exception
  | .refused .ended => .ended
  | .refused _ => .refused

/-- The state of an answer that completed. -/
def completed? (o : Answer State) : Option State :=
  match o with
  | .next t => some t
  | .fault _ => none
  | .refused _ => none

/-- A run of k steps from `s` that ends normally in `t`: all steps complete and the outcome at `t` is `Ended`
(R170, R193). -/
def EndsIn (s : State) (k : Nat) (t : State) : Prop :=
  Sys2Proof.core.run k s = .next t ∧ stepOutcome (step t) = .ended

end Sys2Proof.Machine
end

