-- ==== Sys2Proof/Certificates/Slice0/Obligations.lean ====
section
/-! DEFINITION. The statements for the provers. Each says which rules of spec/ it formalises; a clause that
rests on a choice of the model names its log entry. -/

open Sys2Proof Sys2Proof.Machine

/-! ### Encoding -/

/-- Decoding an encoded instruction gives it back, with every operand at every value (R72 to R79). -/
def Obligations.DecodeEncodeRoundTrip : Prop :=
  ∀ i : Instr, i.wf = true → decode (encode i) = .ok i

/-- A word that decodes is the encoding of what it decodes to: no bit of a word in scope is dropped. -/
def Obligations.EncodeDecodeRoundTrip : Prop :=
  ∀ (w : InstrWord) (i : Instr), decode w = .ok i → encode i = w

/-- The row of an instruction in the opcode maps of R77, R78, R79: (mask, match). -/
def opcodeRow (i : Instr) : InstrWord × InstrWord :=
  match i with
  | .ldB _ _ _ => (0xFFC00000, 0x28000000)
  | .ldH _ _ _ => (0xFFC00000, 0x28400000)
  | .ldW _ _ _ => (0xFFC00000, 0x28800000)
  | .ldD _ _ _ => (0xFFC00000, 0x28C00000)
  | .stB _ _ _ => (0xFFC00000, 0x29000000)
  | .stH _ _ _ => (0xFFC00000, 0x29400000)
  | .stW _ _ _ => (0xFFC00000, 0x29800000)
  | .stD _ _ _ => (0xFFC00000, 0x29C00000)
  | .ldBu _ _ _ => (0xFFC00000, 0x2A000000)
  | .ldHu _ _ _ => (0xFFC00000, 0x2A400000)
  | .ldWu _ _ _ => (0xFFC00000, 0x2A800000)
  | .preld _ _ _ => (0xFFC00000, 0x2AC00000)
  | .ldptrW _ _ _ => (0xFF000000, 0x24000000)
  | .stptrW _ _ _ => (0xFF000000, 0x25000000)
  | .ldptrD _ _ _ => (0xFF000000, 0x26000000)
  | .stptrD _ _ _ => (0xFF000000, 0x27000000)
  | .ldxB _ _ _ => (0xFFFF8000, 0x38000000)
  | .ldxH _ _ _ => (0xFFFF8000, 0x38040000)
  | .ldxW _ _ _ => (0xFFFF8000, 0x38080000)
  | .ldxD _ _ _ => (0xFFFF8000, 0x380C0000)
  | .stxB _ _ _ => (0xFFFF8000, 0x38100000)
  | .stxH _ _ _ => (0xFFFF8000, 0x38140000)
  | .stxW _ _ _ => (0xFFFF8000, 0x38180000)
  | .stxD _ _ _ => (0xFFFF8000, 0x381C0000)
  | .ldxBu _ _ _ => (0xFFFF8000, 0x38200000)
  | .ldxHu _ _ _ => (0xFFFF8000, 0x38240000)
  | .ldxWu _ _ _ => (0xFFFF8000, 0x38280000)
  | .preldx _ _ _ => (0xFFFF8000, 0x382C0000)

/-- R76: a word decodes to the row it matches, with all its fields, to `NotInScope` when it matches none, no
word matches two rows, and every value of every field is legal. -/
def Obligations.DecodeFollowsTheOpcodeMaps : Prop :=
  (∀ (w : InstrWord) (i : Instr), decode w = .ok i → w &&& (opcodeRow i).1 = (opcodeRow i).2) ∧
  (∀ w : InstrWord, (∀ i, w &&& (opcodeRow i).1 ≠ (opcodeRow i).2) → decode w = .error (.notInScope w)) ∧
  (∀ (w : InstrWord) (i : Instr), w &&& (opcodeRow i).1 = (opcodeRow i).2 →
    ∃ j, decode w = .ok j ∧ opcodeRow j = opcodeRow i ∧ encode j = w) ∧
  (∀ (w : InstrWord) (i j : Instr), w &&& (opcodeRow i).1 = (opcodeRow i).2 →
    w &&& (opcodeRow j).1 = (opcodeRow j).2 → opcodeRow i = opcodeRow j) ∧
  ∀ i : Instr, ∃ w, decode w = .ok i

/-- Words of 95_test_vectors.md section 4.1, one of each format and each end of a field. -/
def Obligations.ExampleWordsDecode : Prop :=
  decode 0x283FFFFF = .ok (.ldB 31 31 0xFFF) ∧ decode 0x28C02061 = .ok (.ldD 1 3 8) ∧
  decode 0x29A00041 = .ok (.stW 1 2 0x800) ∧ decode 0x2A40056A = .ok (.ldHu 10 11 1) ∧
  decode 0x247FFCA4 = .ok (.ldptrW 4 5 0x1FFF) ∧ decode 0x27FFFFFF = .ok (.stptrD 31 31 0x3FFF) ∧
  decode 0x38107FFF = .ok (.stxB 31 31 31) ∧ decode 0x3828041F = .ok (.ldxWu 31 0 1) ∧
  decode 0x2AFFFFFF = .ok (.preld 31 31 0xFFF) ∧ decode 0x382C7FFF = .ok (.preldx 31 31 31)

/-- The near misses of 95_test_vectors.md section 4.2 (R80). -/
def Obligations.NearMissWordsAreNotInScope : Prop :=
  List.Forall (fun w => decode w = .error (.notInScope w))
    [0x00000000, 0xFFFFFFFF, 0x10000000, 0x20000000, 0x23FFFFFF, 0x2B000000, 0x2C000000, 0x38008000,
      0x38020000, 0x38030000, 0x382C8000, 0x382FFFFF, 0x38300000, 0x38400000, 0x03400000, 0x4C000020]

/-- The four bytes of a word, lowest address first, decode as the word, whatever bytes follow; fewer than
four are refused by name (R70, R71). -/
def Obligations.BytesDecodeLittleEndian : Prop :=
  (∀ (w : InstrWord) (i : Instr) (rest : List Byte), decode w = .ok i →
    decodeBytes (w.extractLsb' 0 8 :: w.extractLsb' 8 8 :: w.extractLsb' 16 8 :: w.extractLsb' 24 8 :: rest) =
      .ok (i, rest)) ∧
  ∀ bs : List Byte, bs.length < 4 → decodeBytes bs = .error (.tooShort bs.length)

/-! ### Registers, extension, addresses -/

/-- R21: register 0 reads 0 and a write to it has no effect; a load into it still accesses, and can still
raise; a store of it stores zero; as a base or index it counts 0. -/
def Obligations.RegisterZeroIsHardwired : Prop :=
  ∀ s : State, s.gr 0 = 0 ∧ (∀ v, s.setGr 0 v = s) ∧
    (∀ n extend v p b, access s v n .load = .next p → memRead s.mem p n.bytes = some b →
      load n extend 0 v s = .next s.advance) ∧
    (∀ n extend v f, access s v n .load = .fault f → load n extend 0 v s = .fault f) ∧
    (∀ n v p m, access s v n .store = .next p → hitsText s.params p n.bytes = false →
      memWrite s.mem p n.bytes 0 = some m → store n 0 v s = .next (State.advance { s with mem := m })) ∧
    (∀ d, vaddr12 s 0 d = sext64 d) ∧ (∀ r, vaddrX s 0 r = s.gr r ∧ vaddrX s r 0 = s.gr r) ∧
    ∀ d, vaddr14 s 0 d = sext64 (d ++ 0#2)

/-- A register other than 0 holds what was last written to it, and a write changes nothing else (R10, R20). -/
def Obligations.RegisterWriteReadsBack : Prop :=
  ∀ (s : State) (r : RegNum) (v : Word), r ≠ 0 →
    (s.setGr r v).gr r = v ∧ (∀ q, q ≠ r → (s.setGr r v).gr q = s.gr q) ∧
      (s.setGr r v).pc = s.pc ∧ (s.setGr r v).mem = s.mem ∧ (s.setGr r v).params = s.params

/-- Sign and zero extension to 64 bits, as numbers (R8). -/
def Obligations.ExtensionsAsNumbers : Prop :=
  ∀ (m : Nat) (v : BitVec m), 0 < m → m ≤ 64 →
    (sext64 v).toNat = (if v.toNat < 2 ^ (m - 1) then v.toNat else v.toNat + 2 ^ 64 - 2 ^ m) ∧
      (zext64 v).toNat = v.toNat

/-- The three addressing modes and PRELDX's base, modulo 2^64: displacements are signed, `si14` counts in
units of 4, and never changes the address modulo 4 (R43, R111, R131, R144, R161, R168). -/
def Obligations.AddressesAreSums : Prop :=
  ∀ (s : State) (rj rk : RegNum),
    (∀ d : BitVec 12, ((vaddr12 s rj d).toNat : Int) = ((s.gr rj).toNat + d.toInt) % 2 ^ 64) ∧
    (vaddrX s rj rk).toNat = ((s.gr rj).toNat + (s.gr rk).toNat) % 2 ^ 64 ∧
    (∀ d : BitVec 14, ((vaddr14 s rj d).toNat : Int) = ((s.gr rj).toNat + 4 * d.toInt) % 2 ^ 64 ∧
      (vaddr14 s rj d).toNat % 4 = (s.gr rj).toNat % 4) ∧
    ((preldxBase s rj rk).toNat : Int) =
      ((s.gr rj).toNat + ((s.gr rk).extractLsb' 0 16).toInt) % 2 ^ 64

/-- The fields of PRELDX's parameter word, as parts of the number it holds (R161). -/
def Obligations.PreldxFieldsOfTheParameterWord : Prop :=
  ∀ w : Word, (preldxFields w).offset.toNat = w.toNat % 2 ^ 16 ∧
    ((preldxFields w).descending = true ↔ w.toNat / 2 ^ 16 % 2 = 1) ∧
    (preldxFields w).blockSize.toNat = w.toNat / 2 ^ 20 % 2 ^ 6 ∧
    (preldxFields w).blockNumLess1.toNat = w.toNat / 2 ^ 32 % 2 ^ 8 ∧
    (preldxFields w).stride.toNat = w.toNat / 2 ^ 44 % 2 ^ 16

/-! ### Physical memory -/

/-- R48: byte i of what `MemRead` returns is the byte at `paddr + i`; it returns nothing when some byte is
outside the domain. -/
def Obligations.MemReadIsLittleEndian : Prop :=
  ∀ (m : Memory) (p : Nat) (n : AccessSize),
    (∀ v, memRead m p n.bytes = some v → ∀ i, i < n.bytes →
      m.read? (p + i) = some (v.extractLsb' (8 * i) 8)) ∧
    ((∃ v, memRead m p n.bytes = some v) ↔ ∀ i, i < n.bytes → m.has (p + i) = true)

/-- Byte i of the value goes to `paddr + i` and nothing else changes; all bytes are written or none is (R49);
a store that meets the text is refused for that, whether or not it also leaves the domain. That last order is
read from R49 by the model (log 24, DEDUCED), and R49 adds that no claim should depend on which is reported. -/
def Obligations.MemWriteWritesItsBytes : Prop :=
  (∀ (m m' : Memory) (p : Nat) (n : AccessSize) (v : BitVec (8 * n.bytes)), m.wf = true →
    memWrite m p n.bytes v = some m' →
      (∀ i, i < n.bytes → m'.read? (p + i) = some (v.extractLsb' (8 * i) 8)) ∧
      (∀ a, a < p ∨ p + n.bytes ≤ a → m'.read? a = m.read? a) ∧ m'.domain = m.domain) ∧
  (∀ (m : Memory) (p : Nat) (n : AccessSize) (v : BitVec (8 * n.bytes)),
    (∃ m', memWrite m p n.bytes v = some m') ↔ ∀ i, i < n.bytes → m.has (p + i) = true) ∧
  ∀ (s : State) (n : AccessSize) (rd : RegNum) (v : Word) (p : Nat), access s v n .store = .next p →
    hitsText s.params p n.bytes = true → store n rd v s = .refused .storeToText

/-- R42: each byte of a load is the byte a store of any width last wrote there, else the byte that was
there; the spec's numbers; a narrower store replaces only its own bytes. -/
def Obligations.MixedWidthAccesses : Prop :=
  (∀ (m m' : Memory) (p q : Nat) (n k : AccessSize) (v : BitVec (8 * n.bytes)) (u : BitVec (8 * k.bytes)),
    m.wf = true → memWrite m p n.bytes v = some m' → memRead m' q k.bytes = some u →
      ∀ j, j < k.bytes →
        (p ≤ q + j ∧ q + j < p + n.bytes → u.extractLsb' (8 * j) 8 = v.extractLsb' (8 * (q + j - p)) 8) ∧
        (q + j < p ∨ p + n.bytes ≤ q + j → m.read? (q + j) = some (u.extractLsb' (8 * j) 8))) ∧
  ∀ (m m' : Memory) (p : Nat), m.wf = true → memWrite m p 8 (0x1122334455667788 : BitVec 64) = some m' →
    memRead m' p 1 = some (0x88 : BitVec 8) ∧ memRead m' (p + 7) 1 = some (0x11 : BitVec 8) ∧
    memRead m' p 2 = some (0x7788 : BitVec 16) ∧ memRead m' (p + 2) 2 = some (0x5566 : BitVec 16) ∧
    memRead m' p 4 = some (0x55667788 : BitVec 32) ∧ memRead m' (p + 4) 4 = some (0x11223344 : BitVec 32) ∧
    ∀ m'', memWrite m' (p + 1) 1 (0xAB : BitVec 8) = some m'' →
      memRead m'' p 8 = some (0x112233445566AB88 : BitVec 64)

/-- Canonical memories that read alike are equal data. The canonical form is the model's own (log 26). -/
def Obligations.CanonicalMemoriesReadingAlikeAreEqual : Prop :=
  ∀ m m' : Memory, m.wf = true → m'.wf = true → (∀ a, m.read? a = m'.read? a) → m = m'

/-- Every partial map from physical byte addresses to bytes is a memory of the model, in canonical form
(R29; the form is the model's own, log 26). -/
def Obligations.EveryPhysMemIsRepresented : Prop :=
  ∀ f : Nat → Option Byte, (∀ a, Config.physTop ≤ a → f a = none) →
    ∃ m : Memory, m.wf = true ∧ ∀ a, m.read? a = f a

/-! ### The open parameters -/

/-- `AddrLegal` never admits an access that wraps; its default admits all others; where it is false, each of the
26 loads and stores raises `AddressError` (R44). That it is this exception even where the access is misaligned
and not permitted too is the order of R46, a choice (log 15, DESIGN CHOICE; D12, R178). -/
def Obligations.AddrLegalRejectsWraps : Prop :=
  (∀ l v n k, addrLegal l v n k = true → v.toNat + n.bytes ≤ 2 ^ 64) ∧
  (∀ v n k, addrLegal [] v n k = true ↔ v.toNat + n.bytes ≤ 2 ^ 64) ∧
  ∀ i s a, memAccess? i s = some a → addrLegal s.params.illegal a.vaddr a.size a.kind = false →
    exec i s = .fault (.addressError a.vaddr a.kind s.pc)

/-- Every function that R44 allows for `AddrLegal` is the check of some list of spans: the form the model
gives the parameter (log 6) leaves none out. -/
def Obligations.EveryAddrLegalIsRepresented : Prop :=
  ∀ f : Word → AccessSize → AccessKind → Bool,
    (∀ v n k, f v n k = true → v.toNat + n.bytes ≤ 2 ^ 64) →
      ∃ l, ∀ v n k, addrLegal l v n k = f v n k

/-- R45: `Translate` acts on aligned 8-byte blocks; its default is the identity; with entries that pass the
launch's check, physical addresses lie below 2^64. -/
def Obligations.TranslateActsOnBlocks : Prop :=
  (∀ l (a : Word) k i, a.toNat % 8 = 0 → i < 8 →
    (∀ p, translateAddr l a k = .ok p → translateAddr l (a + BitVec.ofNat 64 i) k = .ok (p + i)) ∧
    ∀ c, translateAddr l a k = .fault c → translateAddr l (a + BitVec.ofNat 64 i) k = .fault c) ∧
  (∀ v k, translateAddr [] v k = .ok v.toNat) ∧
  ∀ l v k p, translateBlockwise l = true → translateAddr l v k = .ok p → p < 2 ^ 64

/-- Every function that R45 allows for `Translate` is the translation of some list of entries that passes
the launch's check: the form the model gives the parameter (log 7) leaves none out. -/
def Obligations.EveryTranslateIsRepresented : Prop :=
  ∀ f : Word → AccessKind → XlatResult, (∀ v k p, f v k = .ok p → p < 2 ^ 64) →
    (∀ (a : Word) k i, a.toNat % 8 = 0 → i < 8 →
      (∀ p, f a k = .ok p → f (a + BitVec.ofNat 64 i) k = .ok (p + i)) ∧
      ∀ c, f a k = .fault c → f (a + BitVec.ofNat 64 i) k = .fault c) →
    ∃ l, translateBlockwise l = true ∧ ∀ v k, translateAddr l v k = f v k

/-- For a naturally aligned access the first byte alone decides the translation, and the access is never
refused as non-contiguous (R46, last sentence). -/
def Obligations.AlignedAccessStaysInOneBlock : Prop :=
  ∀ (s : State) (v : Word) (n : AccessSize) (k : AccessKind),
    addrLegal s.params.illegal v n k = true → v.toNat % n.bytes = 0 →
      (∀ p, translateAddr s.params.xlat v k = .ok p → access s v n k = .next p) ∧
      ∀ c, translateAddr s.params.xlat v k = .fault c → access s v n k = .fault (.translationFault c v k s.pc)

/-! ### When an instruction does not complete -/

/-- `AddressError` is raised exactly by a load or store whose access `AddrLegal` rejects, with the virtual
address, the kind and the pc; never by PRELD or PRELDX (R172). That it comes before `Unaligned` where both apply
is the order of R46, a choice that a claim must not depend on (log 15, DESIGN CHOICE; D12, R178). -/
def Obligations.AddressErrorExactlyWhen : Prop :=
  ∀ i s v k pc, exec i s = .fault (.addressError v k pc) ↔
    ∃ a, memAccess? i s = some a ∧ addrLegal s.params.illegal a.vaddr a.size a.kind = false ∧
      v = a.vaddr ∧ k = a.kind ∧ pc = s.pc

/-- `Unaligned` is raised exactly by a load or store that is legal, not naturally aligned, and not both supported
and allowed; never by a byte access, PRELD or PRELDX (R47, R173). That the access must be legal, and that
`Unaligned` comes before a translation fault, is the order of R46, where the place of the alignment test is a
choice (log 15, DESIGN CHOICE; D12, R178). -/
def Obligations.UnalignedExactlyWhen : Prop :=
  (∀ i s v k pc, exec i s = .fault (.unaligned v k pc) ↔
    ∃ a, memAccess? i s = some a ∧ addrLegal s.params.illegal a.vaddr a.size a.kind = true ∧
      a.vaddr.toNat % a.size.bytes ≠ 0 ∧ ¬ (s.params.ualHw = true ∧ s.params.ualEnv = true) ∧
      v = a.vaddr ∧ k = a.kind ∧ pc = s.pc) ∧
  ∀ i s, (∀ a, memAccess? i s = some a → a.size = .byte) → ∀ v k pc, exec i s ≠ .fault (.unaligned v k pc)

/-- `TranslationFault(c)` is raised exactly by a load or store that passes the checks before it, for the lowest
byte whose translation faults; never with the identity translation (R174). That the alignment test is one of the
checks before it is the order of R46, a choice (log 15, DESIGN CHOICE; D12, R178). -/
def Obligations.TranslationFaultExactlyWhen : Prop :=
  (∀ i s c v k pc, exec i s = .fault (.translationFault c v k pc) ↔
    ∃ a, memAccess? i s = some a ∧ addrLegal s.params.illegal a.vaddr a.size a.kind = true ∧
      AlignedOrAllowed s a.vaddr a.size ∧
      (∃ j, j < a.size.bytes ∧
        translateAddr s.params.xlat (a.vaddr + BitVec.ofNat 64 j) a.kind = .fault c ∧
        ∀ j', j' < j → ∃ p, translateAddr s.params.xlat (a.vaddr + BitVec.ofNat 64 j') a.kind = .ok p) ∧
      v = a.vaddr ∧ k = a.kind ∧ pc = s.pc) ∧
  ∀ i s, s.params.xlat = [] → ∀ c v k pc, exec i s ≠ .fault (.translationFault c v k pc)

/-- A load or store is refused as `NonContiguousAccess` exactly when every byte translates but not all to
consecutive physical addresses (R46 step 4, R51), the checks of R46 before it having passed, in an order that is a
choice (log 15, DESIGN CHOICE; D12). -/
def Obligations.NonContiguousAccessExactlyWhen : Prop :=
  ∀ i s, exec i s = .refused .nonContiguousAccess ↔
    ∃ a p, memAccess? i s = some a ∧ addrLegal s.params.illegal a.vaddr a.size a.kind = true ∧
      AlignedOrAllowed s a.vaddr a.size ∧
      (∀ j, j < a.size.bytes →
        ∃ q, translateAddr s.params.xlat (a.vaddr + BitVec.ofNat 64 j) a.kind = .ok q) ∧
      translateAddr s.params.xlat a.vaddr a.kind = .ok p ∧
      ∃ j, j < a.size.bytes ∧
        translateAddr s.params.xlat (a.vaddr + BitVec.ofNat 64 j) a.kind ≠ .ok (p + j)

/-- No store is seen by a fetch; a store is refused as `StoreToText` exactly when its access goes through and one
of its n physical bytes is `Translate(a + j, Load)` for a key a of the text and j in 0..3; no load is (R58). Two
readings are the model's: a text byte whose translation faults is met by no store (log 23, DEDUCED), and the
refusal comes before `Stuck` (log 24, DEDUCED from R49, which adds that no claim should depend on it). -/
def Obligations.StoreToTextExactlyWhen : Prop :=
  (∀ (s : State) (m : Memory), fetch { s with mem := m } = fetch s) ∧
  ∀ i s, exec i s = .refused .storeToText ↔
    ∃ a p, memAccess? i s = some a ∧ a.kind = .store ∧ Reaches s a.vaddr a.size a.kind p ∧
      ∃ c ∈ s.params.text, ∃ j, j < 4 ∧ ∃ q,
        translateAddr s.params.xlat (c.1 + BitVec.ofNat 64 j) .load = .ok q ∧ p ≤ q ∧ q < p + a.size.bytes

/-- A load or store is stuck exactly when its access goes through and one of its bytes is outside the domain of
`PhysMem` (R50), unless it is a store into the text: that is refused instead (R49, R58). This order is the
model's reading (log 24, DEDUCED), and R49 adds that no claim should depend on which is reported. -/
def Obligations.StuckExactlyWhen : Prop :=
  ∀ i s pc, exec i s = .fault (.stuck pc) ↔
    pc = s.pc ∧ ∃ a p, memAccess? i s = some a ∧ Reaches s a.vaddr a.size a.kind p ∧
      (a.kind = .store → hitsText s.params p a.size.bytes = false) ∧
      ∃ j, j < a.size.bytes ∧ s.mem.has (p + j) = false

/-- An instruction that does not complete stops with one of the three exceptions, is stuck, or is refused for
one of the two reasons of accesses: no instruction raises anything else (R170, R175). -/
def Obligations.NoOtherStops : Prop :=
  ∀ i s, (∀ f, exec i s = .fault f →
      (∃ v k, f = .addressError v k s.pc) ∨ (∃ v k, f = .unaligned v k s.pc) ∨
      (∃ c v k, f = .translationFault c v k s.pc) ∨ f = .stuck s.pc) ∧
    ∀ r, exec i s = .refused r → r = .nonContiguousAccess ∨ r = .storeToText

/-! ### What the instructions do -/

/-- LD.B, LD.BU, LDX.B, LDX.BU complete, for every operand, wherever the access reaches an existing byte,
with the byte sign- or zero-extended (R100, R104, R120, R124). -/
def Obligations.ByteLoadsComplete : Prop :=
  ∀ (s : State) (rd : RegNum) (v : Word) (p : Nat) (b : Nat → Byte),
    Reaches s v .byte .load p → Holds s.mem p 1 b →
      (∀ rj d, v = vaddr12 s rj d →
        LoadDone s rd ((b 0).signExtend 64) (exec (.ldB rd rj d) s) ∧
        LoadDone s rd ((b 0).setWidth 64) (exec (.ldBu rd rj d) s)) ∧
      ∀ rj rk, v = vaddrX s rj rk →
        LoadDone s rd ((b 0).signExtend 64) (exec (.ldxB rd rj rk) s) ∧
        LoadDone s rd ((b 0).setWidth 64) (exec (.ldxBu rd rj rk) s)

/-- LD.H, LD.HU, LDX.H, LDX.HU complete likewise, with the halfword of two bytes, the lowest address least
significant (R41, R101, R105, R121, R125). -/
def Obligations.HalfwordLoadsComplete : Prop :=
  ∀ (s : State) (rd : RegNum) (v : Word) (p : Nat) (b : Nat → Byte),
    Reaches s v .halfword .load p → Holds s.mem p 2 b →
      (∀ rj d, v = vaddr12 s rj d →
        LoadDone s rd ((b 1 ++ b 0).signExtend 64) (exec (.ldH rd rj d) s) ∧
        LoadDone s rd ((b 1 ++ b 0).setWidth 64) (exec (.ldHu rd rj d) s)) ∧
      ∀ rj rk, v = vaddrX s rj rk →
        LoadDone s rd ((b 1 ++ b 0).signExtend 64) (exec (.ldxH rd rj rk) s) ∧
        LoadDone s rd ((b 1 ++ b 0).setWidth 64) (exec (.ldxHu rd rj rk) s)

/-- LD.W, LD.WU, LDX.W, LDX.WU, LDPTR.W complete likewise, with the word of four bytes (R41, R102, R106,
R122, R126, R140). -/
def Obligations.WordLoadsComplete : Prop :=
  ∀ (s : State) (rd : RegNum) (v : Word) (p : Nat) (b : Nat → Byte),
    Reaches s v .word .load p → Holds s.mem p 4 b →
      (∀ rj d, v = vaddr12 s rj d →
        LoadDone s rd ((b 3 ++ b 2 ++ b 1 ++ b 0).signExtend 64) (exec (.ldW rd rj d) s) ∧
        LoadDone s rd ((b 3 ++ b 2 ++ b 1 ++ b 0).setWidth 64) (exec (.ldWu rd rj d) s)) ∧
      (∀ rj rk, v = vaddrX s rj rk →
        LoadDone s rd ((b 3 ++ b 2 ++ b 1 ++ b 0).signExtend 64) (exec (.ldxW rd rj rk) s) ∧
        LoadDone s rd ((b 3 ++ b 2 ++ b 1 ++ b 0).setWidth 64) (exec (.ldxWu rd rj rk) s)) ∧
      ∀ rj d, v = vaddr14 s rj d →
        LoadDone s rd ((b 3 ++ b 2 ++ b 1 ++ b 0).signExtend 64) (exec (.ldptrW rd rj d) s)

/-- LD.D, LDX.D, LDPTR.D complete likewise, with the doubleword of eight bytes and no extension (R41,
R103, R123, R141). -/
def Obligations.DoublewordLoadsComplete : Prop :=
  ∀ (s : State) (rd : RegNum) (v : Word) (p : Nat) (b : Nat → Byte),
    Reaches s v .doubleword .load p → Holds s.mem p 8 b →
      let value : Word := b 7 ++ b 6 ++ b 5 ++ b 4 ++ b 3 ++ b 2 ++ b 1 ++ b 0
      (∀ rj d, v = vaddr12 s rj d → LoadDone s rd value (exec (.ldD rd rj d) s)) ∧
      (∀ rj rk, v = vaddrX s rj rk → LoadDone s rd value (exec (.ldxD rd rj rk) s)) ∧
      ∀ rj d, v = vaddr14 s rj d → LoadDone s rd value (exec (.ldptrD rd rj d) s)

/-- ST.B, STX.B complete wherever the access reaches an existing byte outside the text: the low byte of
`rd` is stored, and nothing else changes (R107, R127). -/
def Obligations.ByteStoresComplete : Prop :=
  ∀ (s : State) (rd : RegNum) (v : Word) (p : Nat) (b : Nat → Byte), s.mem.wf = true →
    Reaches s v .byte .store p → Holds s.mem p 1 b → hitsText s.params p 1 = false →
      (∀ rj d, v = vaddr12 s rj d → StoreDone s p 1 (s.gr rd) (exec (.stB rd rj d) s)) ∧
      ∀ rj rk, v = vaddrX s rj rk → StoreDone s p 1 (s.gr rd) (exec (.stxB rd rj rk) s)

/-- ST.H, STX.H likewise, two bytes, the least significant at the lowest address (R41, R108, R128). -/
def Obligations.HalfwordStoresComplete : Prop :=
  ∀ (s : State) (rd : RegNum) (v : Word) (p : Nat) (b : Nat → Byte), s.mem.wf = true →
    Reaches s v .halfword .store p → Holds s.mem p 2 b → hitsText s.params p 2 = false →
      (∀ rj d, v = vaddr12 s rj d → StoreDone s p 2 (s.gr rd) (exec (.stH rd rj d) s)) ∧
      ∀ rj rk, v = vaddrX s rj rk → StoreDone s p 2 (s.gr rd) (exec (.stxH rd rj rk) s)

/-- ST.W, STX.W, STPTR.W likewise, four bytes (R41, R109, R129, R142). -/
def Obligations.WordStoresComplete : Prop :=
  ∀ (s : State) (rd : RegNum) (v : Word) (p : Nat) (b : Nat → Byte), s.mem.wf = true →
    Reaches s v .word .store p → Holds s.mem p 4 b → hitsText s.params p 4 = false →
      (∀ rj d, v = vaddr12 s rj d → StoreDone s p 4 (s.gr rd) (exec (.stW rd rj d) s)) ∧
      (∀ rj rk, v = vaddrX s rj rk → StoreDone s p 4 (s.gr rd) (exec (.stxW rd rj rk) s)) ∧
      ∀ rj d, v = vaddr14 s rj d → StoreDone s p 4 (s.gr rd) (exec (.stptrW rd rj d) s)

/-- ST.D, STX.D, STPTR.D likewise, eight bytes (R41, R110, R130, R143). -/
def Obligations.DoublewordStoresComplete : Prop :=
  ∀ (s : State) (rd : RegNum) (v : Word) (p : Nat) (b : Nat → Byte), s.mem.wf = true →
    Reaches s v .doubleword .store p → Holds s.mem p 8 b → hitsText s.params p 8 = false →
      (∀ rj d, v = vaddr12 s rj d → StoreDone s p 8 (s.gr rd) (exec (.stD rd rj d) s)) ∧
      (∀ rj rk, v = vaddrX s rj rk → StoreDone s p 8 (s.gr rd) (exec (.stxD rd rj rk) s)) ∧
      ∀ rj d, v = vaddr14 s rj d → StoreDone s p 8 (s.gr rd) (exec (.stptrD rd rj d) s)

/-- R151: PRELD completes for every hint, base and displacement, changes only the pc, and raises nothing. -/
def Obligations.PreldOnlyAdvances : Prop :=
  ∀ (s : State) (hint : BitVec 5) (rj : RegNum) (d : BitVec 12),
    ∃ t, exec (.preld hint rj d) s = .next t ∧ t.pc = s.pc + 4 ∧ t.x = s.x ∧ t.mem = s.mem ∧
      t.params = s.params

/-- R163: PRELDX completes for every hint, base and parameter word, changes only the pc, and raises
nothing. -/
def Obligations.PreldxOnlyAdvances : Prop :=
  ∀ (s : State) (hint : BitVec 5) (rj rk : RegNum),
    ∃ t, exec (.preldx hint rj rk) s = .next t ∧ t.pc = s.pc + 4 ∧ t.x = s.x ∧ t.mem = s.mem ∧
      t.params = s.params

/-- The frame of every load: the destination register and the pc apart, everything is as before, register by
register and byte by byte (R22, R24). -/
def Obligations.LoadsFrame : Prop :=
  ∀ i s t a, memAccess? i s = some a → a.kind = .load → exec i s = .next t →
    (∀ r, destReg? i ≠ some r → t.gr r = s.gr r) ∧ (∀ q, t.mem.read? q = s.mem.read? q) ∧
      t.params = s.params

/-- The frame of every store: no register changes, and no byte but the n bytes from the physical address its
virtual address translates to (R22, R24, R49). -/
def Obligations.StoresFrame : Prop :=
  ∀ i s t a, memAccess? i s = some a → a.kind = .store → exec i s = .next t →
    (∀ r, t.gr r = s.gr r) ∧ t.params = s.params ∧
      ∀ p, translateAddr s.params.xlat a.vaddr .store = .ok p →
        ∀ q, q < p ∨ p + a.size.bytes ≤ q → t.mem.read? q = s.mem.read? q

/-- R22: what an instruction does depends on no register but those it reads, and the only register whose
value it determines is a load's `rd`. Two states that agree on the pc, the memory, the parameters and the
registers the instruction reads give the same outcome. -/
def Obligations.OutcomeDependsOnSourceRegisters : Prop :=
  ∀ (i : Instr) (s s' : State), s'.pc = s.pc → s'.mem = s.mem → s'.params = s.params →
    (∀ r ∈ sourceRegs i, s'.gr r = s.gr r) →
      (∀ t, exec i s = .next t → ∃ t', exec i s' = .next t' ∧ t'.mem = t.mem ∧ t'.pc = t.pc ∧
        (∀ d, destReg? i = some d → t'.gr d = t.gr d) ∧
        ∀ r, destReg? i ≠ some r → t.gr r = s.gr r ∧ t'.gr r = s'.gr r) ∧
      (∀ f, exec i s = .fault f → exec i s' = .fault f) ∧
      ∀ r, exec i s = .refused r → exec i s' = .refused r

/-- Nothing an instruction does depends on the value of the pc but the next pc itself (R192: "nothing in any
in-scope instruction depends on the value of `pc`"). -/
def Obligations.InstructionsArePositionIndependent : Prop :=
  ∀ (i : Instr) (s : State) (p : Word),
    (∀ t, exec i s = .next t → exec i { s with pc := p } = .next { t with pc := p + 4 }) ∧
    ∀ r, exec i s = .refused r → exec i { s with pc := p } = .refused r

/-- A completed instruction leaves the launch parameters and the domain of `PhysMem` as they are (R29,
R32). -/
def Obligations.LaunchParametersAreConstant : Prop :=
  ∀ i s t, exec i s = .next t →
    t.params = s.params ∧ t.mem.domain = s.mem.domain ∧
      ∀ a, (t.mem.read? a).isSome = (s.mem.read? a).isSome

/-- A load right after a store of the same width at the same operands returns the stored bits, extended:
the result of a store is there for the next instruction (R42, R55, R194). -/
def Obligations.LoadAfterStoreReturnsTheStoredBits : Prop :=
  ∀ (s t : State) (rd rq rj : RegNum) (d : BitVec 12) (n : AccessSize), s.mem.wf = true →
    addrLegal s.params.illegal (vaddr12 s rj d) n .load = true →
    (∀ i, i < n.bytes → translateAddr s.params.xlat (vaddr12 s rj d + BitVec.ofNat 64 i) .load =
      translateAddr s.params.xlat (vaddr12 s rj d + BitVec.ofNat 64 i) .store) →
      (n = .byte → exec (.stB rd rj d) s = .next t →
        LoadDone t rq (((s.gr rd).setWidth 8).signExtend 64) (exec (.ldB rq rj d) t) ∧
        LoadDone t rq (((s.gr rd).setWidth 8).setWidth 64) (exec (.ldBu rq rj d) t)) ∧
      (n = .halfword → exec (.stH rd rj d) s = .next t →
        LoadDone t rq (((s.gr rd).setWidth 16).signExtend 64) (exec (.ldH rq rj d) t) ∧
        LoadDone t rq (((s.gr rd).setWidth 16).setWidth 64) (exec (.ldHu rq rj d) t)) ∧
      (n = .word → exec (.stW rd rj d) s = .next t →
        LoadDone t rq (((s.gr rd).setWidth 32).signExtend 64) (exec (.ldW rq rj d) t) ∧
        LoadDone t rq (((s.gr rd).setWidth 32).setWidth 64) (exec (.ldWu rq rj d) t)) ∧
      (n = .doubleword → exec (.stD rd rj d) s = .next t →
        LoadDone t rq (s.gr rd) (exec (.ldD rq rj d) t))

/-- The addressing mode decides nothing but the address: LDPTR, STPTR, LDX and STX do what LD and ST of the same
width do at the same address, and base and index may be swapped (R131; R140 to R143, "same effect"). -/
def Obligations.AddressingModesAgree : Prop :=
  ∀ (s : State) (rd rj : RegNum) (d : BitVec 12),
    (∀ (q : RegNum) (e : BitVec 14), vaddr14 s q e = vaddr12 s rj d →
      exec (.ldptrW rd q e) s = exec (.ldW rd rj d) s ∧ exec (.ldptrD rd q e) s = exec (.ldD rd rj d) s ∧
      exec (.stptrW rd q e) s = exec (.stW rd rj d) s ∧ exec (.stptrD rd q e) s = exec (.stD rd rj d) s) ∧
    ∀ q k : RegNum, vaddrX s q k = vaddrX s k q ∧ (vaddrX s q k = vaddr12 s rj d →
      exec (.ldxB rd q k) s = exec (.ldB rd rj d) s ∧ exec (.ldxH rd q k) s = exec (.ldH rd rj d) s ∧
      exec (.ldxW rd q k) s = exec (.ldW rd rj d) s ∧ exec (.ldxD rd q k) s = exec (.ldD rd rj d) s ∧
      exec (.ldxBu rd q k) s = exec (.ldBu rd rj d) s ∧ exec (.ldxHu rd q k) s = exec (.ldHu rd rj d) s ∧
      exec (.ldxWu rd q k) s = exec (.ldWu rd rj d) s ∧
      exec (.stxB rd q k) s = exec (.stB rd rj d) s ∧ exec (.stxH rd q k) s = exec (.stH rd rj d) s ∧
      exec (.stxW rd q k) s = exec (.stW rd rj d) s ∧ exec (.stxD rd q k) s = exec (.stD rd rj d) s)

/-! ### Steps, launches, runs -/

/-- When the word at the pc decodes to a well-formed instruction, a step is that instruction's meaning. The
premise on the text is the model's (log 13). -/
def Obligations.StepRunsTheDecodedInstruction : Prop :=
  ∀ (s : State) (w : InstrWord) (i : Instr), textWraps s.params = false → s.pc ≠ s.params.endPc →
    s.pc.toNat % 4 = 0 → s.params.text.lookup s.pc = some w → decode w = .ok i → i.wf = true →
      step s = exec i s

/-- R70: the cases of the fetch in its order, and the refusal of a word that is none of the 28 (R80). The
premise on the text is the model's (log 13). -/
def Obligations.FetchCases : Prop :=
  ∀ s : State, textWraps s.params = false →
    (s.pc = s.params.endPc → step s = .refused .ended) ∧
    (s.pc ≠ s.params.endPc →
      (s.pc.toNat % 4 ≠ 0 → step s = .fault (.fetchMisaligned s.pc)) ∧
      (s.pc.toNat % 4 = 0 →
        ((∀ c ∈ s.params.text, c.1 ≠ s.pc) → step s = .fault (.fetchOutsideText s.pc)) ∧
        ∀ w, s.params.text.lookup s.pc = some w →
          ((∀ i, decode w ≠ .ok i) → step s = .refused (.notInScope s.pc w)) ∧
          ∀ i, decode w = .ok i → step s = exec i s))

/-- What `withFetchWord` places is what the next step runs, at every aligned pc but the last slot of the
address space (log 9). -/
def Obligations.PlacedWordRuns : Prop :=
  ∀ (s : State) (w : InstrWord) (i : Instr), s.pc.toNat % 4 = 0 → s.pc ≠ topSlot → decode w = .ok i →
    step (s.withFetchWord 32 w.toNat) = exec i (s.withFetchWord 32 w.toNat) ∧
      decodeTableWord 32 w.toNat = some i

/-- A completed instruction advances the pc by 4, modulo 2^64, and one that raises reports its own pc; a launch
whose text contains the address 2^64 - 4 is refused (R24). A completed step never wraps: of every state, admitted
or not, this holds because each step repeats the `WrapAtTop` test, which R24 gives to the launch alone; that is the
model's choice (log 13, DESIGN CHOICE). -/
def Obligations.PcAdvancesByFour : Prop :=
  (∀ i s t, exec i s = .next t → t.pc = s.pc + 4) ∧
  (∀ i s c v k pc, (exec i s = .fault (.addressError v k pc) ∨ exec i s = .fault (.unaligned v k pc) ∨
    exec i s = .fault (.translationFault c v k pc)) → pc = s.pc) ∧
  (∀ s t, step s = .next t → t.pc.toNat = s.pc.toNat + 4) ∧
  ∀ s c, c ∈ s.params.text → c.1 = topSlot → ∃ r, launch s = .refused r

/-- A step ends a run exactly at `end_pc` (R170, R193); a text that wraps is refused before (log 13). -/
def Obligations.EndedExactlyAtEndPc : Prop :=
  ∀ s : State, stepOutcome (step s) = .ended ↔ textWraps s.params = false ∧ s.pc = s.params.endPc

/-- R192: the launch accepts a record, and then starts from it as it is, exactly when the text and the two
pcs are aligned, the keys of the text rise by 4 from a base to `end_pc` below 2^64 with `pc0` among the slots,
the entries of `Translate` stay below 2^64 and the memory is canonical. The model's own are the form of the last
two (logs 7, 26) and that the text lists its keys in rising order (log 27). -/
def Obligations.LaunchAcceptsExactlyWellFormedRecords : Prop :=
  ∀ s : State, (∀ t, launch s = .next t → t = s) ∧
    ((∃ t, launch s = .next t) ↔
      (∀ c ∈ s.params.text, c.1.toNat % 4 = 0) ∧ s.pc.toNat % 4 = 0 ∧ s.params.endPc.toNat % 4 = 0 ∧
      (∃ base : Nat,
        s.params.text.map (fun c => c.1.toNat) =
          (List.range s.params.text.length).map (fun i => base + 4 * i) ∧
        s.params.endPc.toNat = base + 4 * s.params.text.length ∧
        ∃ i, i ≤ s.params.text.length ∧ s.pc.toNat = base + 4 * i) ∧
      translateBlockwise s.params.xlat = true ∧ s.mem.wf = true)

/-- The canonical form of the memory is kept by every step, from every state that has it (log 26). -/
def Obligations.StepKeepsMemoryCanonical : Prop :=
  ∀ s t : State, s.mem.wf = true → step s = .next t → t.mem.wf = true

/-- Every step from an admitted state leads to an admitted state: the pc stays aligned, on a slot of the text or
at its end, and the text stays well formed (R24, R192). Two parts of `admitted` are in the model's own form: the
check of the translation's entries (log 7) and the canonical memory, which R192 does not have (log 26). -/
def Obligations.StepKeepsAdmitted : Prop :=
  ∀ s t : State, admitted s = true → step s = .next t → admitted t = true

/-- An admitted state never meets a fault of the fetch or the wrap refusal (R70, R192); that a step tests the wrap
at all is the model's choice (log 13), and so is the form of two parts of `admitted` (logs 7, 26). -/
def Obligations.AdmittedStepsNeverFaultAtFetch : Prop :=
  ∀ s : State, admitted s = true →
    (∀ pc, step s ≠ .fault (.fetchMisaligned pc) ∧ step s ≠ .fault (.fetchOutsideText pc)) ∧
      step s ≠ .refused .wrapAtTop

/-- R193: from an admitted state a run executes the instructions between the pc and `end_pc` in address
order, at most `(end_pc - pc) / 4` of them; it ends after exactly so many, at `end_pc`, and only there. -/
def Obligations.RunIsAStraightLine : Prop :=
  ∀ s : State, admitted s = true →
    let slots := (s.params.endPc.toNat - s.pc.toNat) / 4
    (∀ k t, Sys2Proof.core.run k s = .next t → k ≤ slots ∧ t.pc.toNat = s.pc.toNat + 4 * k) ∧
    (∀ t, Sys2Proof.core.run slots s = .next t → EndsIn s slots t) ∧
    ∀ k t, EndsIn s k t → k = slots ∧ t.pc = s.params.endPc

/-- The reset state is an admitted launch record, and launching it starts from it. It is the model's choice:
R33 gives no reset value but register 0's (logs 2, 3, 4, 9). -/
def Obligations.ResetIsAdmitted : Prop :=
  admitted State.reset = true ∧ launch State.reset = .next State.reset

/-- What reset leaves. Register 0 is 0 by R33; the rest is the model's choice: registers 0 (log 2), the pc
(log 3), every physical address present and reading 0 (log 4), no program, so the run is over (log 9), the
defaults of R44 and R45 (logs 6, 7). -/
def Obligations.ResetLeaves : Prop :=
  (∀ r, State.reset.gr r = 0) ∧ State.reset.pc = 0x1C000000 ∧
  (∀ a, a < 2 ^ 64 → State.reset.mem.read? a = some 0) ∧
  (∀ a, 2 ^ 64 ≤ a → State.reset.mem.read? a = none) ∧ step State.reset = .refused .ended ∧
  (∀ v n k, addrLegal State.reset.params.illegal v n k = true ↔ v.toNat + n.bytes ≤ 2 ^ 64) ∧
  ∀ v k, translateAddr State.reset.params.xlat v k = .ok v.toNat
end

