-- ==== Sys2Proof/Laws/Memory.lean ====
section
/-! SUPPORT. The laws of physical memory: reading after writing, the domain, the canonical form. -/

namespace Sys2Proof.Machine

/-! ### Cells -/

theorem cellAt_of_lt {from_ a : Nat} {l : List Host.Cell} (hl : cellsFrom from_ l = true) (h : a < from_) :
    cellAt l a = Config.unlistedByte := by
  induction l generalizing from_ with
  | nil => rfl
  | cons c rest ih =>
    simp only [cellsFrom, Bool.and_eq_true, decide_eq_true_eq] at hl
    have : c.1 ≠ a := by omega
    simp only [cellAt, this, if_false]
    exact ih hl.2 (by omega)

theorem cellAt_setCell_self {from_ : Nat} {l : List Host.Cell} (hl : cellsFrom from_ l = true) (a : Nat)
    (b : Byte) : cellAt (setCell l a b) a = b := by
  induction l generalizing from_ with
  | nil => by_cases hb : b = Config.unlistedByte <;> simp [setCell, cellAt, hb]
  | cons c rest ih =>
    simp only [cellsFrom, Bool.and_eq_true, decide_eq_true_eq] at hl
    by_cases h1 : a < c.1
    · have hne : c.1 ≠ a := by omega
      by_cases hb : b = Config.unlistedByte
      · simp [setCell, cellAt, h1, hb, hne, cellAt_of_lt hl.2 (show a < c.1 + 1 by omega)]
      · simp [setCell, cellAt, h1, hb]
    · by_cases h2 : a = c.1
      · by_cases hb : b = Config.unlistedByte
        · simp [setCell, h2, hb, cellAt_of_lt hl.2 (show c.1 < c.1 + 1 by omega)]
        · simp [setCell, cellAt, h2, hb]
      · have h3 : c.1 ≠ a := fun e => h2 e.symm
        simp [setCell, cellAt, h1, h2, h3, ih hl.2]

theorem cellAt_setCell_of_ne (l : List Host.Cell) {a q : Nat} (h : q ≠ a) (b : Byte) :
    cellAt (setCell l a b) q = cellAt l q := by
  have h' : a ≠ q := fun e => h e.symm
  induction l with
  | nil => by_cases hb : b = Config.unlistedByte <;> simp [setCell, cellAt, hb, h']
  | cons c rest ih =>
    by_cases h1 : a < c.1
    · by_cases hb : b = Config.unlistedByte <;> simp [setCell, cellAt, h1, hb, h']
    · by_cases h2 : a = c.1
      · have h3 : c.1 ≠ q := fun e => h' (h2.trans e)
        by_cases hb : b = Config.unlistedByte <;> simp [setCell, cellAt, h2, hb, h3]
      · simp [setCell, cellAt, h1, h2, ih]

theorem cellsFrom_mono {f g : Nat} {l : List Host.Cell} (h : cellsFrom g l = true) (hfg : f ≤ g) :
    cellsFrom f l = true := by
  cases l with
  | nil => rfl
  | cons c rest =>
    simp only [cellsFrom, Bool.and_eq_true, decide_eq_true_eq] at h ⊢
    exact ⟨⟨by omega, h.1.2⟩, h.2⟩

theorem cellsFrom_setCell {from_ : Nat} {l : List Host.Cell} (hl : cellsFrom from_ l = true) {a : Nat}
    (ha : from_ ≤ a) (b : Byte) : cellsFrom from_ (setCell l a b) = true := by
  induction l generalizing from_ with
  | nil => by_cases hb : b = Config.unlistedByte <;> simp [setCell, cellsFrom, hb, ha]
  | cons c rest ih =>
    have hl' := hl
    simp only [cellsFrom, Bool.and_eq_true, decide_eq_true_eq] at hl
    by_cases h1 : a < c.1
    · by_cases hb : b = Config.unlistedByte
      · simpa [setCell, h1, hb] using hl'
      · have : a + 1 ≤ c.1 := h1
        simp [setCell, h1, hb, cellsFrom, ha, this, hl.2]
        simpa using hl.1.2
    · by_cases h2 : a = c.1
      · by_cases hb : b = Config.unlistedByte
        · simpa [setCell, h2, hb] using cellsFrom_mono hl.2 (by omega)
        · simp [setCell, h2, hb, cellsFrom, hl.2]; omega
      · simp only [setCell, h1, h2, if_false, cellsFrom, Bool.and_eq_true, decide_eq_true_eq]
        exact ⟨hl.1, ih hl.2 (by omega)⟩

theorem all_setCell {P : Host.Cell → Bool} {l : List Host.Cell} (hl : l.all P = true) {a : Nat} {b : Byte}
    (hab : P (a, b) = true) : (setCell l a b).all P = true := by
  induction l with
  | nil => by_cases hb : b = Config.unlistedByte <;> simp [setCell, hb, hab]
  | cons c rest ih =>
    simp only [List.all_cons, Bool.and_eq_true] at hl
    by_cases h1 : a < c.1
    · by_cases hb : b = Config.unlistedByte <;>
        simp only [setCell, h1, hb, if_true, if_false, List.all_cons, hl, hab, Bool.and_self]
    · by_cases h2 : a = c.1
      · by_cases hb : b = Config.unlistedByte
        · simpa [setCell, h2, hb] using hl.2
        · subst h2; simp [setCell, hb, hab]; simpa using hl.2
      · simp only [setCell, h1, h2, if_false, List.all_cons, Bool.and_eq_true]
        exact ⟨hl.1, ih hl.2⟩

/-! ### One byte -/

theorem read?_isSome (m : Memory) (a : Nat) : (m.read? a).isSome = m.has a := by
  unfold Memory.read?; split <;> simp_all

/-- A write of one byte succeeds on the domain, and keeps the domain. -/
theorem write?_eq_some {m m' : Memory} {a : Nat} {b : Byte} (h : m.write? a b = some m') :
    m.has a = true ∧ m' = { m with cells := setCell m.cells a b } := by
  unfold Memory.write? at h
  split at h
  · exact ⟨‹_›, (Option.some.inj h).symm⟩
  · cases h

theorem write?_domain {m m' : Memory} {a : Nat} {b : Byte} (h : m.write? a b = some m') :
    m'.domain = m.domain := by rw [(write?_eq_some h).2]

theorem write?_wf {m m' : Memory} {a : Nat} {b : Byte} (hw : m.wf = true) (h : m.write? a b = some m') :
    m'.wf = true := by
  obtain ⟨ha, rfl⟩ := write?_eq_some h
  simp only [Memory.wf, Bool.and_eq_true] at hw ⊢
  refine ⟨⟨hw.1.1, cellsFrom_setCell hw.1.2 (Nat.zero_le a) b⟩, ?_⟩
  exact all_setCell (P := fun c => m.has c.1) hw.2 ha

theorem read?_write?_self {m m' : Memory} {a : Nat} {b : Byte} (hw : m.wf = true)
    (h : m.write? a b = some m') : m'.read? a = some b := by
  obtain ⟨ha, rfl⟩ := write?_eq_some h
  simp only [Memory.wf, Bool.and_eq_true] at hw
  have : Memory.has { m with cells := setCell m.cells a b } a = true := ha
  simp [Memory.read?, this, cellAt_setCell_self hw.1.2]

theorem read?_write?_of_ne {m m' : Memory} {a q : Nat} {b : Byte} (h : m.write? a b = some m')
    (hq : q ≠ a) : m'.read? q = m.read? q := by
  obtain ⟨ha, rfl⟩ := write?_eq_some h
  have : Memory.has { m with cells := setCell m.cells a b } q = m.has q := rfl
  simp [Memory.read?, this, cellAt_setCell_of_ne _ hq]

/-! ### Wide accesses -/

/-- What `MemWrite` can do: if it writes, the domain and the canonical form stay, and every byte outside
the n written ones reads as before. -/
theorem memWrite_frame {m m' : Memory} {p n : Nat} {v : BitVec (8 * n)} (h : memWrite m p n v = some m') :
    m'.domain = m.domain ∧ (m.wf = true → m'.wf = true) ∧
      ∀ a, a < p ∨ p + n ≤ a → m'.read? a = m.read? a := by
  induction n generalizing m p with
  | zero => simp only [memWrite, Option.some.injEq] at h; subst h; simp
  | succ n ih =>
    simp only [memWrite] at h
    split at h
    · rename_i m1 h1
      obtain ⟨hd, hw, hr⟩ := ih h
      refine ⟨hd.trans (write?_domain h1), fun w => hw (write?_wf w h1), fun a ha => ?_⟩
      rw [hr a (by omega), read?_write?_of_ne h1 (by omega)]
    · cases h

/-- What `MemWrite` writes: byte i of the value stands at `p + i` (R49). -/
theorem memWrite_bytes {m m' : Memory} {p n : Nat} {v : BitVec (8 * n)} (hw : m.wf = true)
    (h : memWrite m p n v = some m') {i : Nat} (hi : i < n) :
    m'.read? (p + i) = some (v.extractLsb' (8 * i) 8) := by
  induction n generalizing m p i with
  | zero => omega
  | succ n ih =>
    simp only [memWrite] at h
    split at h
    · rename_i m1 h1
      cases i with
      | zero =>
        rw [(memWrite_frame h).2.2 _ (by omega)]
        simpa using read?_write?_self hw h1
      | succ j =>
        have := ih (write?_wf hw h1) h (show j < n by omega)
        rw [show p + (j + 1) = p + 1 + j by omega, this]
        congr 1
        ext k hk
        have : 8 + (8 * j + k) = 8 * (j + 1) + k := by omega
        have h2 : 8 * j + k < 8 * n := by omega
        have h3 : 8 * (j + 1) + k < 8 * (n + 1) := by omega
        simp [BitVec.getElem_extractLsb', this, h2]
    · cases h

/-- `MemWrite` writes whenever all its bytes are in the domain. -/
theorem memWrite_isSome {m : Memory} {p n : Nat} (v : BitVec (8 * n))
    (h : ∀ i, i < n → m.has (p + i) = true) : ∃ m', memWrite m p n v = some m' := by
  induction n generalizing m p with
  | zero => exact ⟨m, rfl⟩
  | succ n ih =>
    have h0 : m.write? p (v.extractLsb' 0 8) = some { m with cells := setCell m.cells p (v.extractLsb' 0 8) } := by
      simp [Memory.write?, show m.has p = true from h 0 (by omega)]
    simp only [memWrite, h0]
    refine ih _ fun i hi => ?_
    have := h (i + 1) (by omega)
    rwa [show p + (i + 1) = p + 1 + i by omega] at this

/-- `MemWrite` writes nothing when one of its bytes is outside the domain (R50). -/
theorem memWrite_eq_none {m : Memory} {p n i : Nat} (v : BitVec (8 * n)) (hi : i < n)
    (h : m.has (p + i) = false) : memWrite m p n v = none := by
  induction n generalizing m p i with
  | zero => omega
  | succ n ih =>
    simp only [memWrite]
    split
    · rename_i m1 h1
      obtain ⟨ha, rfl⟩ := write?_eq_some h1
      cases i with
      | zero => simp [ha] at h
      | succ j =>
        refine ih _ (show j < n by omega) ?_
        rwa [show p + (j + 1) = p + 1 + j by omega] at h
    · rfl

/-- What `MemRead` answers: byte i of the value is the byte at `p + i` (R48). -/
theorem memRead_bytes {m : Memory} {p n : Nat} {v : BitVec (8 * n)} (h : memRead m p n = some v) {i : Nat}
    (hi : i < n) : m.read? (p + i) = some (v.extractLsb' (8 * i) 8) := by
  induction n generalizing p i with
  | zero => omega
  | succ n ih =>
    simp only [memRead] at h
    split at h
    · rename_i lo hi' hlo hhi
      cases h
      cases i with
      | zero =>
        simp only [Nat.add_zero, hlo, Nat.mul_zero]
        congr 1
        ext k hk
        simp [BitVec.getElem_extractLsb', BitVec.getLsbD_append, hk]
      | succ j =>
        rw [show p + (j + 1) = p + 1 + j by omega, ih hhi (by omega)]
        congr 1
        ext k hk
        have h1 : ¬ 8 * (j + 1) + k < 8 := by omega
        have h2 : 8 * (j + 1) + k - 8 = 8 * j + k := by omega
        simp [BitVec.getElem_extractLsb', BitVec.getLsbD_append, h1, h2]
    · cases h

/-- `MemRead` answers whenever all its bytes are in the domain. -/
theorem memRead_isSome {m : Memory} {p n : Nat} (h : ∀ i, i < n → m.has (p + i) = true) :
    ∃ v, memRead m p n = some v := by
  induction n generalizing p with
  | zero => exact ⟨_, rfl⟩
  | succ n ih =>
    obtain ⟨hi, hhi⟩ := ih (p := p + 1) fun i hi => by
      have := h (i + 1) (by omega)
      rwa [show p + (i + 1) = p + 1 + i by omega] at this
    have h0 : (m.read? p).isSome = true := by rw [read?_isSome]; exact h 0 (by omega)
    obtain ⟨lo, hlo⟩ := Option.isSome_iff_exists.mp h0
    exact ⟨hi ++ lo, by simp [memRead, hlo, hhi]⟩

/-- `MemRead` answers nothing when one of its bytes is outside the domain (R50). -/
theorem memRead_eq_none {m : Memory} {p n i : Nat} (hi : i < n) (h : m.has (p + i) = false) :
    memRead m p n = none := by
  cases hr : memRead m p n with
  | none => rfl
  | some v =>
    have := memRead_bytes hr hi
    have hs := read?_isSome m (p + i)
    rw [this, h] at hs
    cases hs

theorem memRead_eq_none_iff {m : Memory} {p n : Nat} :
    memRead m p n = none ↔ ∃ j, j < n ∧ m.has (p + j) = false := by
  refine ⟨fun h => ?_, fun ⟨j, hj, h⟩ => memRead_eq_none hj h⟩
  by_contra hn
  push Not at hn
  obtain ⟨v, hv⟩ := memRead_isSome (m := m) (p := p) (n := n) fun i hi => by simpa using hn i hi
  rw [hv] at h
  cases h

theorem memWrite_eq_none_iff {m : Memory} {p n : Nat} {v : BitVec (8 * n)} :
    memWrite m p n v = none ↔ ∃ j, j < n ∧ m.has (p + j) = false := by
  refine ⟨fun h => ?_, fun ⟨j, hj, h⟩ => memWrite_eq_none v hj h⟩
  by_contra hn
  push Not at hn
  obtain ⟨w, hw⟩ := memWrite_isSome (m := m) (p := p) v fun i hi => by simpa using hn i hi
  rw [hw] at h
  cases h

/-! ### The four widths, byte by byte -/

theorem zero_width_append (b : Byte) : (0#0 ++ b : BitVec 8) = b := by
  have h : ∀ b : Byte, (0#0 ++ b : BitVec 8) = b := by decide
  exact h b

theorem memRead_one {m : Memory} {p : Nat} {b : Nat → Byte}
    (h : ∀ i, i < 1 → m.read? (p + i) = some (b i)) : memRead m p 1 = some (b 0) := by
  have h0 : m.read? p = some (b 0) := h 0 (by omega)
  simp [memRead, h0, zero_width_append]

theorem memRead_two {m : Memory} {p : Nat} {b : Nat → Byte}
    (h : ∀ i, i < 2 → m.read? (p + i) = some (b i)) : memRead m p 2 = some (b 1 ++ b 0) := by
  have h0 : m.read? p = some (b 0) := h 0 (by omega)
  simp [memRead, h0, h 1, zero_width_append]

theorem memRead_four {m : Memory} {p : Nat} {b : Nat → Byte}
    (h : ∀ i, i < 4 → m.read? (p + i) = some (b i)) :
    memRead m p 4 = some (b 3 ++ b 2 ++ b 1 ++ b 0) := by
  have h0 : m.read? p = some (b 0) := h 0 (by omega)
  simp [memRead, h0, h 1, h 2, h 3, Nat.add_assoc, zero_width_append]

theorem memRead_eight {m : Memory} {p : Nat} {b : Nat → Byte}
    (h : ∀ i, i < 8 → m.read? (p + i) = some (b i)) :
    memRead m p 8 = some (b 7 ++ b 6 ++ b 5 ++ b 4 ++ b 3 ++ b 2 ++ b 1 ++ b 0) := by
  have h0 : m.read? p = some (b 0) := h 0 (by omega)
  simp [memRead, h0, h 1, h 2, h 3, h 4, h 5, h 6, h 7, Nat.add_assoc, zero_width_append]

/-- The memory after reset has the canonical form. -/
theorem reset_mem_wf : State.reset.mem.wf = true := by decide

end Sys2Proof.Machine
end

