-- ==== Sys2Proof/Laws/State.lean ====
section
/-! SUPPORT. One lemma per field per update of the state, and the laws of the registers. -/

namespace Sys2Proof.Machine

@[simp] theorem advance_x (s : State) : s.advance.x = s.x := rfl
@[simp] theorem advance_pc (s : State) : s.advance.pc = s.pc + 4 := rfl
@[simp] theorem advance_mem (s : State) : s.advance.mem = s.mem := rfl
@[simp] theorem advance_params (s : State) : s.advance.params = s.params := rfl

@[simp] theorem setGr_pc (s : State) (r : RegNum) (v : Word) : (s.setGr r v).pc = s.pc := by
  unfold State.setGr; split <;> rfl
@[simp] theorem setGr_mem (s : State) (r : RegNum) (v : Word) : (s.setGr r v).mem = s.mem := by
  unfold State.setGr; split <;> rfl
@[simp] theorem setGr_params (s : State) (r : RegNum) (v : Word) : (s.setGr r v).params = s.params := by
  unfold State.setGr; split <;> rfl

@[simp] theorem gr_advance (s : State) (r : RegNum) : s.advance.gr r = s.gr r := rfl
@[simp] theorem gr_with_mem (s : State) (m : Memory) (r : RegNum) :
    State.gr { s with mem := m } r = s.gr r := rfl
@[simp] theorem gr_with_pc (s : State) (p : Word) (r : RegNum) :
    State.gr { s with pc := p } r = s.gr r := rfl
@[simp] theorem gr_with_params (s : State) (ps : Params) (r : RegNum) :
    State.gr { s with params := ps } r = s.gr r := rfl

/-- Register 0 reads 0 in every state (R21). -/
@[simp] theorem gr_zero (s : State) : s.gr 0#5 = 0#64 := rfl

/-- A write to register 0 changes nothing (R21). -/
@[simp] theorem setGr_zero (s : State) (v : Word) : s.setGr 0#5 v = s := rfl

theorem toNat_ne_zero {r : RegNum} (h : r ≠ 0) : r.toNat ≠ 0 :=
  fun e => h (BitVec.eq_of_toNat_eq e)

theorem toNat_pred_lt (r : RegNum) (h : r ≠ 0) : r.toNat - 1 < 31 := by
  have := r.isLt
  have := toNat_ne_zero h
  omega

theorem gr_of_ne_zero (s : State) {r : RegNum} (h : r ≠ 0) :
    s.gr r = s.x[r.toNat - 1]'(toNat_pred_lt r h) := dif_neg h

theorem setGr_of_ne_zero (s : State) {r : RegNum} (h : r ≠ 0) (v : Word) :
    s.setGr r v = { s with x := s.x.set (r.toNat - 1) v (toNat_pred_lt r h) } := dif_neg h

/-- A register other than 0 reads the value written to it. -/
theorem gr_setGr_self (s : State) {r : RegNum} (h : r ≠ 0) (v : Word) : (s.setGr r v).gr r = v := by
  rw [gr_of_ne_zero _ h]
  simp [setGr_of_ne_zero s h]

/-- A write leaves every other register alone. -/
theorem gr_setGr_of_ne (s : State) {r q : RegNum} (h : q ≠ r) (v : Word) :
    (s.setGr r v).gr q = s.gr q := by
  by_cases hr : r = 0
  · subst hr; rfl
  by_cases hq : q = 0
  · subst hq; rfl
  have h1 := toNat_ne_zero hr
  have h2 := toNat_ne_zero hq
  have hne : r.toNat - 1 ≠ q.toNat - 1 := fun e => h (BitVec.eq_of_toNat_eq (by omega))
  rw [gr_of_ne_zero _ hq, gr_of_ne_zero _ hq]
  simp [setGr_of_ne_zero s hr, Vector.getElem_set_ne _ _ hne]

end Sys2Proof.Machine
end

