-- ==== Sys2Proof/Laws/Access.lean ====
section
/-! SUPPORT. What each shared operation can do, said once: `Access`, loads, stores, the fetch. -/

namespace Sys2Proof.Machine

/-- If a part of a step goes on, the part before it went on too. -/
theorem andThen_eq_next {α β : Type} {o : Answer α} {f : α → Answer β} {b : β}
    (h : andThen o f = .next b) : ∃ a, o = .next a ∧ f a = .next b := by
  cases o with
  | next a => exact ⟨a, rfl, h⟩
  | fault r => cases h
  | refused r => cases h

@[simp] theorem andThen_next {α β : Type} (a : α) (f : α → Answer β) :
    andThen (Host.Outcome.next a) f = f a := rfl
@[simp] theorem andThen_fault {α β : Type} (r : Fault) (f : α → Answer β) :
    andThen (Host.Outcome.fault r) f = .fault r := rfl
@[simp] theorem andThen_refused {α β : Type} (r : Refusal) (f : α → Answer β) :
    andThen (Host.Outcome.refused r) f = .refused r := rfl

/-! ### Translation -/

theorem mem_byteAddrs {v a : Word} {n : Nat} :
    a ∈ byteAddrs v n ↔ ∃ i, i < n ∧ a = v + BitVec.ofNat 64 i := by
  simp only [byteAddrs, List.mem_map, List.mem_range]
  constructor
  · rintro ⟨i, hi, rfl⟩; exact ⟨i, hi, rfl⟩
  · rintro ⟨i, hi, rfl⟩; exact ⟨i, hi, rfl⟩

theorem firstFault_eq_none {ps : Params} {k : AccessKind} {l : List Word} :
    firstFault ps k l = none ↔ ∀ a ∈ l, ∃ p, translateAddr ps.xlat a k = .ok p := by
  induction l with
  | nil => simp [firstFault]
  | cons a rest ih =>
    cases h : translateAddr ps.xlat a k <;> simp [firstFault, h, ih]

/-- The address of the next byte, counted from the next address. -/
theorem add_ofNat_succ (v : Word) (i : Nat) :
    v + BitVec.ofNat 64 (i + 1) = v + 1 + BitVec.ofNat 64 i := by
  rw [Nat.add_comm i 1, BitVec.ofNat_add, ← BitVec.add_assoc]
  rfl

theorem byteAddrs_succ (v : Word) (n : Nat) : byteAddrs v (n + 1) = v :: byteAddrs (v + 1) n := by
  simp only [byteAddrs, List.range_succ_eq_map, List.map_cons, List.map_map]
  congr 1
  · simp
  · refine List.map_congr_left fun i _ => ?_
    exact add_ofNat_succ v i

/-- A list of translations is consecutive exactly when each byte goes to its own place. -/
theorem contiguous_iff {ps : Params} {k : AccessKind} {p n : Nat} {v : Word} :
    contiguous ps k p (byteAddrs v n) = true ↔
      ∀ i, i < n → translateAddr ps.xlat (v + BitVec.ofNat 64 i) k = .ok (p + i) := by
  induction n generalizing p v with
  | zero => simp [byteAddrs, contiguous]
  | succ n ih =>
    rw [byteAddrs_succ]
    simp only [contiguous, Bool.and_eq_true, beq_iff_eq, ih]
    constructor
    · rintro ⟨h0, h⟩ i hi
      cases i with
      | zero => simpa using h0
      | succ j =>
        have := h j (by omega)
        rw [show p + (j + 1) = p + 1 + j by omega, ← this, add_ofNat_succ]
    · intro h
      refine ⟨by simpa using h 0 (by omega), fun i hi => ?_⟩
      have := h (i + 1) (by omega)
      rwa [show p + (i + 1) = p + 1 + i by omega, add_ofNat_succ] at this

/-- What R58 calls a byte of the text. -/
theorem hitsText_iff {ps : Params} {p n : Nat} :
    hitsText ps p n = true ↔ ∃ c ∈ ps.text, ∃ j, j < 4 ∧ ∃ q,
      translateAddr ps.xlat (c.1 + BitVec.ofNat 64 j) .load = .ok q ∧ p ≤ q ∧ q < p + n := by
  simp only [hitsText, List.any_eq_true, mem_byteAddrs]
  constructor
  · rintro ⟨c, hc, a, ⟨j, hj, rfl⟩, h⟩
    split at h
    · rename_i q hq
      exact ⟨c, hc, j, hj, q, hq, by simpa using h⟩
    · cases h
  · rintro ⟨c, hc, j, hj, q, hq, h⟩
    exact ⟨c, hc, _, ⟨j, hj, rfl⟩, by rw [hq]; simpa using h⟩

/-! ### Access -/

theorem AccessSize.bytes_pos (n : AccessSize) : 0 < n.bytes := by cases n <;> decide

/-- What `Access` can answer: the access is legal, aligned or permitted, and its bytes are physically
consecutive from the answer on. -/
theorem access_eq_next {s : State} {v : Word} {n : AccessSize} {k : AccessKind} {p : Nat}
    (h : access s v n k = .next p) :
    addrLegal s.params.illegal v n k = true ∧
      (v.toNat % n.bytes = 0 ∨ s.params.ualHw = true ∧ s.params.ualEnv = true) ∧
      ∀ i, i < n.bytes → translateAddr s.params.xlat (v + BitVec.ofNat 64 i) k = .ok (p + i) := by
  unfold access at h
  split at h
  · cases h
  rename_i h1
  split at h
  · cases h
  rename_i h2
  split at h
  · cases h
  split at h
  · cases h
  split at h
  · rename_i h3
    cases h
    refine ⟨by simpa using h1, ?_, contiguous_iff.mp h3⟩
    by_cases h0 : v.toNat % n.bytes = 0
    · exact .inl h0
    · exact .inr (by simpa [h0] using h2)
  · cases h

/-- When `Access` answers. -/
theorem access_of_reaches {s : State} {v : Word} {n : AccessSize} {k : AccessKind} {p : Nat}
    (hl : addrLegal s.params.illegal v n k = true)
    (ha : v.toNat % n.bytes = 0 ∨ s.params.ualHw = true ∧ s.params.ualEnv = true)
    (ht : ∀ i, i < n.bytes → translateAddr s.params.xlat (v + BitVec.ofNat 64 i) k = .ok (p + i)) :
    access s v n k = .next p := by
  have h0 : translateAddr s.params.xlat v k = .ok p := by simpa using ht 0 n.bytes_pos
  have hf : firstFault s.params k (byteAddrs v n.bytes) = none :=
    firstFault_eq_none.mpr fun a h => by
      obtain ⟨i, hi, rfl⟩ := mem_byteAddrs.mp h
      exact ⟨_, ht i hi⟩
  have h2 : ¬ (v.toNat % n.bytes ≠ 0 && !(s.params.ualHw && s.params.ualEnv)) = true := by
    rcases ha with h | ⟨h, h'⟩
    · simp [h]
    · simp [h, h']
  simp only [access, hl, Bool.not_true, Bool.false_eq_true, if_false, h2, hf, h0,
    contiguous_iff.mpr ht, if_true]

/-- The fault that `firstFault` finds, found at the lowest byte that has one. -/
theorem firstFault_eq_some {ps : Params} {k : AccessKind} {c : Cause} {v : Word} {n : Nat}
    (h : firstFault ps k (byteAddrs v n) = some c) :
    ∃ j, j < n ∧ translateAddr ps.xlat (v + BitVec.ofNat 64 j) k = .fault c ∧
      ∀ j', j' < j → ∃ p, translateAddr ps.xlat (v + BitVec.ofNat 64 j') k = .ok p := by
  induction n generalizing v with
  | zero => simp [byteAddrs, firstFault] at h
  | succ n ih =>
    rw [byteAddrs_succ, firstFault] at h
    split at h
    · rename_i c' hc
      cases h
      exact ⟨0, by omega, by simpa using hc, fun j' hj => by omega⟩
    · rename_i q hq
      obtain ⟨j, hj, hf, hb⟩ := ih h
      refine ⟨j + 1, by omega, by rwa [add_ofNat_succ], fun j' hj' => ?_⟩
      cases j' with
      | zero => exact ⟨q, by simpa using hq⟩
      | succ i => rw [add_ofNat_succ]; exact hb i (by omega)

/-- Everything `Access` can answer, each with its condition; the conditions exclude one another. -/
theorem access_cases (s : State) (v : Word) (n : AccessSize) (k : AccessKind) :
    (addrLegal s.params.illegal v n k = false ∧ access s v n k = .fault (.addressError v k s.pc)) ∨
    addrLegal s.params.illegal v n k = true ∧
      ((v.toNat % n.bytes ≠ 0 ∧ ¬ (s.params.ualHw = true ∧ s.params.ualEnv = true) ∧
          access s v n k = .fault (.unaligned v k s.pc)) ∨
        (v.toNat % n.bytes = 0 ∨ s.params.ualHw = true ∧ s.params.ualEnv = true) ∧
          ((∃ c j, j < n.bytes ∧ translateAddr s.params.xlat (v + BitVec.ofNat 64 j) k = .fault c ∧
              (∀ j', j' < j → ∃ p, translateAddr s.params.xlat (v + BitVec.ofNat 64 j') k = .ok p) ∧
              access s v n k = .fault (.translationFault c v k s.pc)) ∨
            (∀ j, j < n.bytes → ∃ q, translateAddr s.params.xlat (v + BitVec.ofNat 64 j) k = .ok q) ∧
              ∃ p, translateAddr s.params.xlat v k = .ok p ∧
                ((∀ i, i < n.bytes → translateAddr s.params.xlat (v + BitVec.ofNat 64 i) k = .ok (p + i)) ∧
                    access s v n k = .next p ∨
                  (∃ j, j < n.bytes ∧
                      translateAddr s.params.xlat (v + BitVec.ofNat 64 j) k ≠ .ok (p + j)) ∧
                    access s v n k = .refused .nonContiguousAccess))) := by
  cases hl : addrLegal s.params.illegal v n k with
  | false => exact .inl ⟨rfl, by simp [access, hl, raise]⟩
  | true =>
    refine .inr ⟨rfl, ?_⟩
    by_cases ha : v.toNat % n.bytes = 0 ∨ s.params.ualHw = true ∧ s.params.ualEnv = true
    · refine .inr ⟨ha, ?_⟩
      have h2 : ¬ (v.toNat % n.bytes ≠ 0 && !(s.params.ualHw && s.params.ualEnv)) = true := by
        rcases ha with h | ⟨h, h'⟩
        · simp [h]
        · simp [h, h']
      cases hf : firstFault s.params k (byteAddrs v n.bytes) with
      | some c =>
        obtain ⟨j, hj, h1, hb⟩ := firstFault_eq_some hf
        exact .inl ⟨c, j, hj, h1, hb, by
          simp only [access, hl, Bool.not_true, Bool.false_eq_true, if_false, h2, hf, raise]⟩
      | none =>
        have hall : ∀ j, j < n.bytes → ∃ q, translateAddr s.params.xlat (v + BitVec.ofNat 64 j) k = .ok q :=
          fun j hj => firstFault_eq_none.mp hf _ (mem_byteAddrs.mpr ⟨j, hj, rfl⟩)
        refine .inr ⟨hall, ?_⟩
        obtain ⟨p, hp⟩ := hall 0 n.bytes_pos
        have hp : translateAddr s.params.xlat v k = .ok p := by simpa using hp
        refine ⟨p, hp, ?_⟩
        cases hc : contiguous s.params k p (byteAddrs v n.bytes) with
        | true =>
          exact .inl ⟨contiguous_iff.mp hc, by
            simp only [access, hl, Bool.not_true, Bool.false_eq_true, if_false, h2, hf, hp, hc, if_true]⟩
        | false =>
          refine .inr ⟨?_, by
            simp only [access, hl, Bool.not_true, Bool.false_eq_true, if_false, h2, hf, hp, hc]⟩
          by_contra hn
          push Not at hn
          rw [contiguous_iff.mpr hn] at hc
          cases hc
    · refine .inl ⟨fun h => ha (.inl h), fun h => ha (.inr h), ?_⟩
      have h2 : (v.toNat % n.bytes ≠ 0 && !(s.params.ualHw && s.params.ualEnv)) = true := by
        push Not at ha
        obtain ⟨h, h'⟩ := ha
        cases hh : s.params.ualHw <;> simp_all
      simp only [access, hl, Bool.not_true, Bool.false_eq_true, if_false, h2, if_true, raise]

/-! ### Loads and stores -/

/-- What a load can do. -/
theorem load_eq_next {n : AccessSize} {extend : BitVec (8 * n.bytes) → Word} {rd : RegNum} {v : Word}
    {s t : State} (h : load n extend rd v s = .next t) :
    ∃ p b, access s v n .load = .next p ∧ memRead s.mem p n.bytes = some b ∧
      t = (s.setGr rd (extend b)).advance := by
  obtain ⟨p, hp, h⟩ := andThen_eq_next h
  split at h
  · cases h
  · rename_i b hb
    cases h
    exact ⟨p, b, hp, hb, rfl⟩

/-- When a load completes. -/
theorem load_of_access {n : AccessSize} {extend : BitVec (8 * n.bytes) → Word} {rd : RegNum} {v : Word}
    {s : State} {p : Nat} {b : BitVec (8 * n.bytes)} (hp : access s v n .load = .next p)
    (hb : memRead s.mem p n.bytes = some b) :
    load n extend rd v s = .next (s.setGr rd (extend b)).advance := by
  simp [load, hp, hb]

/-- What a store can do. -/
theorem store_eq_next {n : AccessSize} {rd : RegNum} {v : Word} {s t : State}
    (h : store n rd v s = .next t) :
    ∃ p m, access s v n .store = .next p ∧ hitsText s.params p n.bytes = false ∧
      memWrite s.mem p n.bytes ((s.gr rd).setWidth (8 * n.bytes)) = some m ∧
      t = State.advance { s with mem := m } := by
  obtain ⟨p, hp, h⟩ := andThen_eq_next h
  split at h
  · cases h
  · rename_i ht
    split at h
    · cases h
    · rename_i m hm
      cases h
      exact ⟨p, m, hp, by simpa using ht, hm, rfl⟩

/-- When a store completes. -/
theorem store_of_access {n : AccessSize} {rd : RegNum} {v : Word} {s : State} {p : Nat} {m : Memory}
    (hp : access s v n .store = .next p) (ht : hitsText s.params p n.bytes = false)
    (hm : memWrite s.mem p n.bytes ((s.gr rd).setWidth (8 * n.bytes)) = some m) :
    store n rd v s = .next (State.advance { s with mem := m }) := by
  simp [store, hp, ht, hm]

/-- Everything a load can do: it stops as its access stops, is stuck, or completes. -/
theorem load_cases (n : AccessSize) (extend : BitVec (8 * n.bytes) → Word) (rd : RegNum) (v : Word)
    (s : State) :
    (∃ f, access s v n .load = .fault f ∧ load n extend rd v s = .fault f) ∨
    (∃ r, access s v n .load = .refused r ∧ load n extend rd v s = .refused r) ∨
    ∃ p, access s v n .load = .next p ∧
      (memRead s.mem p n.bytes = none ∧ load n extend rd v s = .fault (.stuck s.pc) ∨
        ∃ b, memRead s.mem p n.bytes = some b ∧
          load n extend rd v s = .next (s.setGr rd (extend b)).advance) := by
  cases ha : access s v n .load with
  | fault f => exact .inl ⟨f, rfl, by simp [load, ha]⟩
  | refused r => exact .inr (.inl ⟨r, rfl, by simp [load, ha]⟩)
  | next p =>
    refine .inr (.inr ⟨p, rfl, ?_⟩)
    cases hb : memRead s.mem p n.bytes with
    | none => exact .inl ⟨rfl, by simp [load, ha, hb]⟩
    | some b => exact .inr ⟨b, rfl, load_of_access ha hb⟩

/-- Everything a store can do: it stops as its access stops, is refused for the text, is stuck, or
completes. -/
theorem store_cases (n : AccessSize) (rd : RegNum) (v : Word) (s : State) :
    (∃ f, access s v n .store = .fault f ∧ store n rd v s = .fault f) ∨
    (∃ r, access s v n .store = .refused r ∧ store n rd v s = .refused r) ∨
    ∃ p, access s v n .store = .next p ∧
      (hitsText s.params p n.bytes = true ∧ store n rd v s = .refused .storeToText ∨
        hitsText s.params p n.bytes = false ∧
          (memWrite s.mem p n.bytes ((s.gr rd).setWidth (8 * n.bytes)) = none ∧
              store n rd v s = .fault (.stuck s.pc) ∨
            ∃ m, memWrite s.mem p n.bytes ((s.gr rd).setWidth (8 * n.bytes)) = some m ∧
              store n rd v s = .next (State.advance { s with mem := m }))) := by
  cases ha : access s v n .store with
  | fault f => exact .inl ⟨f, rfl, by simp [store, ha]⟩
  | refused r => exact .inr (.inl ⟨r, rfl, by simp [store, ha]⟩)
  | next p =>
    refine .inr (.inr ⟨p, rfl, ?_⟩)
    cases ht : hitsText s.params p n.bytes with
    | true => exact .inl ⟨rfl, by simp [store, ha, ht]⟩
    | false =>
      refine .inr ⟨rfl, ?_⟩
      cases hm : memWrite s.mem p n.bytes ((s.gr rd).setWidth (8 * n.bytes)) with
      | none => exact .inl ⟨rfl, by simp [store, ha, ht, hm]⟩
      | some m => exact .inr ⟨m, rfl, store_of_access ha ht hm⟩

/-- What a prefetch does. -/
@[simp] theorem prefetch_eq (r : Option PrefetchRequest) (s : State) :
    prefetch r s = .next s.advance := rfl

/-- Every byte of memory keeps its value across a load. -/
theorem load_frame {n : AccessSize} {extend : BitVec (8 * n.bytes) → Word} {rd : RegNum} {v : Word}
    {s t : State} (h : load n extend rd v s = .next t) :
    t.pc = s.pc + 4 ∧ t.mem = s.mem ∧ t.params = s.params ∧ ∀ r, r ≠ rd → t.gr r = s.gr r := by
  obtain ⟨p, b, -, -, rfl⟩ := load_eq_next h
  exact ⟨by simp, by simp, by simp, fun r hr => by simp [gr_setGr_of_ne s hr]⟩

/-- A store writes no register and no parameter. -/
theorem store_frame {n : AccessSize} {rd : RegNum} {v : Word} {s t : State}
    (h : store n rd v s = .next t) :
    t.pc = s.pc + 4 ∧ t.x = s.x ∧ t.params = s.params ∧ t.mem.domain = s.mem.domain ∧
      (s.mem.wf = true → t.mem.wf = true) := by
  obtain ⟨p, m, -, -, hm, rfl⟩ := store_eq_next h
  have := memWrite_frame hm
  exact ⟨rfl, rfl, rfl, this.1, this.2.1⟩

/-! ### Fetch -/

/-- What the fetch can answer. -/
theorem fetch_eq_next {s : State} {w : InstrWord} (h : fetch s = .next w) :
    textWraps s.params = false ∧ s.pc ≠ s.params.endPc ∧ s.pc.toNat % 4 = 0 ∧
      s.params.text.lookup s.pc = some w := by
  unfold fetch at h
  split at h
  · cases h
  split at h
  · cases h
  split at h
  · cases h
  split at h
  · cases h
  · cases h
    exact ⟨by simp_all, ‹_›, by omega, ‹_›⟩

end Sys2Proof.Machine
end

