-- ==== Sys2Proof/Laws/Encode.lean ====
section
/-! SUPPORT. What each encoder puts in each field, how a word is rebuilt from its fields, and what a match
against a row of the opcode maps says. -/

namespace Sys2Proof

/-- The fields of a word of format 2RI12, and what formats 2RI12 and 2RI14 read as its opcode (R72). -/
theorem fields_encode2RI12 (op : BitVec 10) (rd rj : BitVec 5) (d : BitVec 12) :
    fieldRd (encode2RI12 op rd rj d) = rd ∧ fieldRj (encode2RI12 op rd rj d) = rj ∧
    fieldSi12 (encode2RI12 op rd rj d) = d ∧ (encode2RI12 op rd rj d).extractLsb' 22 10 = op ∧
    (encode2RI12 op rd rj d).extractLsb' 24 8 = op.extractLsb' 2 8 := by
  refine ⟨?_, ?_, ?_, ?_, ?_⟩ <;> ext i hi <;>
    simp only [fieldRd, fieldRj, fieldSi12, encode2RI12, BitVec.getElem_extractLsb', BitVec.getLsbD_append]
  · simp [hi]
  · have : ¬ 5 + i < 5 := by omega
    simp [hi, this]
  · have : ¬ 10 + i < 5 := by omega
    have h2 : ¬ 10 + i - 5 < 5 := by omega
    have h3 : 10 + i - 5 - 5 = i := by omega
    simp [hi, this, h2, h3]
  · have : ¬ 22 + i < 5 := by omega
    have h2 : ¬ 22 + i - 5 < 5 := by omega
    have h3 : ¬ 22 + i - 5 - 5 < 12 := by omega
    have h4 : 22 + i - 5 - 5 - 12 = i := by omega
    simp [hi, this, h2, h3, h4]
  · have : ¬ 24 + i < 5 := by omega
    have h2 : ¬ 24 + i - 5 < 5 := by omega
    have h3 : ¬ 24 + i - 5 - 5 < 12 := by omega
    have h4 : 24 + i - 5 - 5 - 12 = 2 + i := by omega
    simp [this, h2, h3, h4]

/-- The fields of a word of format 2RI14 and its opcode (R73). -/
theorem fields_encode2RI14 (op : BitVec 8) (rd rj : BitVec 5) (d : BitVec 14) :
    fieldRd (encode2RI14 op rd rj d) = rd ∧ fieldRj (encode2RI14 op rd rj d) = rj ∧
    fieldSi14 (encode2RI14 op rd rj d) = d ∧ (encode2RI14 op rd rj d).extractLsb' 24 8 = op := by
  refine ⟨?_, ?_, ?_, ?_⟩ <;> ext i hi <;>
    simp only [fieldRd, fieldRj, fieldSi14, encode2RI14, BitVec.getElem_extractLsb', BitVec.getLsbD_append]
  · simp [hi]
  · have : ¬ 5 + i < 5 := by omega
    simp [hi, this]
  · have : ¬ 10 + i < 5 := by omega
    have h2 : ¬ 10 + i - 5 < 5 := by omega
    have h3 : 10 + i - 5 - 5 = i := by omega
    simp [hi, this, h2, h3]
  · have : ¬ 24 + i < 5 := by omega
    have h2 : ¬ 24 + i - 5 < 5 := by omega
    have h3 : ¬ 24 + i - 5 - 5 < 14 := by omega
    have h4 : 24 + i - 5 - 5 - 14 = i := by omega
    simp [hi, this, h2, h3, h4]

/-- The fields of a word of format 3R, and what the three formats read as its opcode (R74). -/
theorem fields_encode3R (op : BitVec 17) (rd rj rk : BitVec 5) :
    fieldRd (encode3R op rd rj rk) = rd ∧ fieldRj (encode3R op rd rj rk) = rj ∧
    fieldRk (encode3R op rd rj rk) = rk ∧ (encode3R op rd rj rk).extractLsb' 15 17 = op ∧
    (encode3R op rd rj rk).extractLsb' 22 10 = op.extractLsb' 7 10 ∧
    (encode3R op rd rj rk).extractLsb' 24 8 = op.extractLsb' 9 8 := by
  refine ⟨?_, ?_, ?_, ?_, ?_, ?_⟩ <;> ext i hi <;>
    simp only [fieldRd, fieldRj, fieldRk, encode3R, BitVec.getElem_extractLsb', BitVec.getLsbD_append]
  · simp [hi]
  · have : ¬ 5 + i < 5 := by omega
    simp [hi, this]
  · have : ¬ 10 + i < 5 := by omega
    have h2 : ¬ 10 + i - 5 < 5 := by omega
    have h3 : 10 + i - 5 - 5 = i := by omega
    simp [hi, this, h2, h3]
  · have : ¬ 15 + i < 5 := by omega
    have h2 : ¬ 15 + i - 5 < 5 := by omega
    have h3 : ¬ 15 + i - 5 - 5 < 5 := by omega
    have h4 : 15 + i - 5 - 5 - 5 = i := by omega
    simp [hi, this, h2, h3, h4]
  · have : ¬ 22 + i < 5 := by omega
    have h2 : ¬ 22 + i - 5 < 5 := by omega
    have h3 : ¬ 22 + i - 5 - 5 < 5 := by omega
    have h4 : 22 + i - 5 - 5 - 5 = 7 + i := by omega
    simp [this, h2, h3, h4]
  · have : ¬ 24 + i < 5 := by omega
    have h2 : ¬ 24 + i - 5 < 5 := by omega
    have h3 : ¬ 24 + i - 5 - 5 < 5 := by omega
    have h4 : 24 + i - 5 - 5 - 5 = 9 + i := by omega
    simp [this, h2, h3, h4]
/-- A word of format 2RI12 is rebuilt from its fields. -/
theorem encode2RI12_fields (w : InstrWord) :
    encode2RI12 (w.extractLsb' 22 10) (fieldRd w) (fieldRj w) (fieldSi12 w) = w := by
  unfold encode2RI12 fieldRd fieldRj fieldSi12
  ext i hi
  simp only [BitVec.getElem_append, BitVec.getElem_extractLsb']
  split_ifs <;> rw [BitVec.getLsbD_eq_getElem (by omega)] <;> congr 1 <;> omega

/-- A word of format 2RI14 is rebuilt from its fields. -/
theorem encode2RI14_fields (w : InstrWord) :
    encode2RI14 (w.extractLsb' 24 8) (fieldRd w) (fieldRj w) (fieldSi14 w) = w := by
  unfold encode2RI14 fieldRd fieldRj fieldSi14
  ext i hi
  simp only [BitVec.getElem_append, BitVec.getElem_extractLsb']
  split_ifs <;> rw [BitVec.getLsbD_eq_getElem (by omega)] <;> congr 1 <;> omega

/-- A word of format 3R is rebuilt from its fields. -/
theorem encode3R_fields (w : InstrWord) :
    encode3R (w.extractLsb' 15 17) (fieldRd w) (fieldRj w) (fieldRk w) = w := by
  unfold encode3R fieldRd fieldRj fieldRk
  ext i hi
  simp only [BitVec.getElem_append, BitVec.getElem_extractLsb']
  split_ifs <;> rw [BitVec.getLsbD_eq_getElem (by omega)] <;> congr 1 <;> omega

/-- What a lookup finds stands in the table. -/
theorem mem_of_lookup {α β : Type} [BEq α] [LawfulBEq α] {l : List (α × β)} {a : α} {b : β}
    (h : l.lookup a = some b) : (a, b) ∈ l := by
  induction l with
  | nil => cases h
  | cons c r ih =>
    simp only [List.lookup] at h
    split at h
    · rename_i he
      have he := eq_of_beq he
      cases h; subst he
      exact List.mem_cons_self
    · exact List.mem_cons_of_mem _ (ih h)

/-- A match under a mask of the n high bits is the value of those bits. -/
theorem and_highMask {n m : Nat} (w : BitVec (n + m)) (op : BitVec n) :
    w &&& (BitVec.allOnes n ++ 0#m) = op ++ 0#m ↔ w.extractLsb' m n = op := by
  constructor
  · intro h
    ext i hi
    have := congrArg (fun x : BitVec (n + m) => x.getLsbD (m + i)) h
    simpa [BitVec.getLsbD_append, hi] using this
  · rintro rfl
    ext i hi
    by_cases h : i < m
    · simp [BitVec.getElem_append, h]
    · have h1 : m + (i - m) = i := by omega
      simp [BitVec.getElem_append, h, h1, BitVec.getLsbD_eq_getElem hi]

/-- A match on the mask of format 2RI12 is the value of bits 31:22 (R77). -/
theorem and_mask2RI12 (w : InstrWord) (op : BitVec 10) :
    w &&& 0xFFC00000 = op ++ 0#22 ↔ w.extractLsb' 22 10 = op := and_highMask (n := 10) (m := 22) w op

/-- A match on the mask of format 2RI14 is the value of bits 31:24 (R78). -/
theorem and_mask2RI14 (w : InstrWord) (op : BitVec 8) :
    w &&& 0xFF000000 = op ++ 0#24 ↔ w.extractLsb' 24 8 = op := and_highMask (n := 8) (m := 24) w op

/-- A match on the mask of format 3R is the value of bits 31:15 (R79). -/
theorem and_mask3R (w : InstrWord) (op : BitVec 17) :
    w &&& 0xFFFF8000 = op ++ 0#15 ↔ w.extractLsb' 15 17 = op := and_highMask (n := 17) (m := 15) w op

/-- Bits of a wider opcode read through a narrower format's window. -/
theorem narrow_opcode (w : InstrWord) :
    w.extractLsb' 24 8 = (w.extractLsb' 22 10).extractLsb' 2 8 ∧
      w.extractLsb' 22 10 = (w.extractLsb' 15 17).extractLsb' 7 10 ∧
      w.extractLsb' 24 8 = (w.extractLsb' 15 17).extractLsb' 9 8 := by
  refine ⟨?_, ?_, ?_⟩ <;> ext i hi <;> simp only [BitVec.getElem_extractLsb', BitVec.getLsbD_extractLsb']
  · have : 2 + i < 10 := by omega
    simp [this, show 22 + (2 + i) = 24 + i by omega]
  · have : 7 + i < 17 := by omega
    simp [this, show 15 + (7 + i) = 22 + i by omega]
  · have : 9 + i < 17 := by omega
    simp [this, show 15 + (9 + i) = 24 + i by omega]

/-- The four bytes of a word make the word again (R70). -/
theorem wordOfBytes_bytesOfWord (w : InstrWord) :
    wordOfBytes (w.extractLsb' 0 8) (w.extractLsb' 8 8) (w.extractLsb' 16 8) (w.extractLsb' 24 8) = w := by
  unfold wordOfBytes
  ext i hi
  simp only [BitVec.getElem_append, BitVec.getElem_extractLsb']
  split_ifs <;> rw [BitVec.getLsbD_eq_getElem (by omega)] <;> congr 1 <;> omega

end Sys2Proof
end

