-- ==== Sys2Proof/Laws/Step.lean ====
section
/-! SUPPORT. What a step can do, and the updates of `withFetchWord`. -/

namespace Sys2Proof.Machine

@[simp] theorem withFetchWord_x (s : State) (nbits w : Nat) : (s.withFetchWord nbits w).x = s.x := rfl
@[simp] theorem withFetchWord_pc (s : State) (nbits w : Nat) : (s.withFetchWord nbits w).pc = s.pc := rfl
@[simp] theorem withFetchWord_mem (s : State) (nbits w : Nat) :
    (s.withFetchWord nbits w).mem = s.mem := rfl

/-- A step that completes fetched a word, decoded it and executed the instruction. -/
theorem step_eq_next {s t : State} (h : step s = .next t) :
    ∃ w i, fetch s = .next w ∧ decode w = .ok i ∧ exec i s = .next t := by
  obtain ⟨w, hw, h⟩ := andThen_eq_next h
  split at h
  · exact ⟨w, _, hw, ‹_›, h⟩
  · cases h

end Sys2Proof.Machine
end

