-- ==== Sys2Proof/Laws/Exec.lean ====
section
/-! SUPPORT. What the 28 meanings have in common, said once: each is a prefetch, a load or a store. -/

namespace Sys2Proof.Machine

/-- The instruction is a prefetch: it accesses nothing and only advances the pc. -/
def IsPrefetch (i : Instr) : Prop :=
  destReg? i = none ∧ ∀ s, memAccess? i s = none ∧ exec i s = .next s.advance

/-- The instruction is a load of size n into `rd` at the address `v`, which its source registers decide. -/
def IsLoad (i : Instr) (n : AccessSize) (extend : BitVec (8 * n.bytes) → Word) (rd : RegNum)
    (v : State → Word) : Prop :=
  destReg? i = some rd ∧
    (∀ s, memAccess? i s = some ⟨v s, n, .load⟩ ∧ exec i s = load n extend rd (v s) s) ∧
    ∀ s s' : State, (∀ r ∈ sourceRegs i, s'.gr r = s.gr r) → v s' = v s

/-- The instruction is a store of size n of `rd` at the address `v`, which its source registers decide. -/
def IsStore (i : Instr) (n : AccessSize) (rd : RegNum) (v : State → Word) : Prop :=
  destReg? i = none ∧ rd ∈ sourceRegs i ∧
    (∀ s, memAccess? i s = some ⟨v s, n, .store⟩ ∧ exec i s = store n rd (v s) s) ∧
    ∀ s s' : State, (∀ r ∈ sourceRegs i, s'.gr r = s.gr r) → v s' = v s

theorem vaddr12_congr {s s' : State} {rj : RegNum} (h : s'.gr rj = s.gr rj) (d : BitVec 12) :
    vaddr12 s' rj d = vaddr12 s rj d := by simp [vaddr12, h]

theorem vaddr14_congr {s s' : State} {rj : RegNum} (h : s'.gr rj = s.gr rj) (d : BitVec 14) :
    vaddr14 s' rj d = vaddr14 s rj d := by simp [vaddr14, h]

theorem vaddrX_congr {s s' : State} {rj rk : RegNum} (h : s'.gr rj = s.gr rj) (h' : s'.gr rk = s.gr rk) :
    vaddrX s' rj rk = vaddrX s rj rk := by simp [vaddrX, h, h']

theorem isLoad12 {i : Instr} {n : AccessSize} {extend : BitVec (8 * n.bytes) → Word} {rd rj : RegNum}
    {d : BitVec 12} (hd : destReg? i = some rd) (hr : rj ∈ sourceRegs i)
    (h : ∀ s, memAccess? i s = some ⟨vaddr12 s rj d, n, .load⟩ ∧
      exec i s = load n extend rd (vaddr12 s rj d) s) :
    IsLoad i n extend rd fun s => vaddr12 s rj d :=
  ⟨hd, h, fun _ _ he => vaddr12_congr (he rj hr) d⟩

theorem isLoad14 {i : Instr} {n : AccessSize} {extend : BitVec (8 * n.bytes) → Word} {rd rj : RegNum}
    {d : BitVec 14} (hd : destReg? i = some rd) (hr : rj ∈ sourceRegs i)
    (h : ∀ s, memAccess? i s = some ⟨vaddr14 s rj d, n, .load⟩ ∧
      exec i s = load n extend rd (vaddr14 s rj d) s) :
    IsLoad i n extend rd fun s => vaddr14 s rj d :=
  ⟨hd, h, fun _ _ he => vaddr14_congr (he rj hr) d⟩

theorem isLoadX {i : Instr} {n : AccessSize} {extend : BitVec (8 * n.bytes) → Word} {rd rj rk : RegNum}
    (hd : destReg? i = some rd) (hr : rj ∈ sourceRegs i) (hk : rk ∈ sourceRegs i)
    (h : ∀ s, memAccess? i s = some ⟨vaddrX s rj rk, n, .load⟩ ∧
      exec i s = load n extend rd (vaddrX s rj rk) s) :
    IsLoad i n extend rd fun s => vaddrX s rj rk :=
  ⟨hd, h, fun _ _ he => vaddrX_congr (he rj hr) (he rk hk)⟩

theorem isStore12 {i : Instr} {n : AccessSize} {rd rj : RegNum} {d : BitVec 12} (hd : destReg? i = none)
    (hs : rd ∈ sourceRegs i) (hr : rj ∈ sourceRegs i)
    (h : ∀ s, memAccess? i s = some ⟨vaddr12 s rj d, n, .store⟩ ∧
      exec i s = store n rd (vaddr12 s rj d) s) :
    IsStore i n rd fun s => vaddr12 s rj d :=
  ⟨hd, hs, h, fun _ _ he => vaddr12_congr (he rj hr) d⟩

theorem isStore14 {i : Instr} {n : AccessSize} {rd rj : RegNum} {d : BitVec 14} (hd : destReg? i = none)
    (hs : rd ∈ sourceRegs i) (hr : rj ∈ sourceRegs i)
    (h : ∀ s, memAccess? i s = some ⟨vaddr14 s rj d, n, .store⟩ ∧
      exec i s = store n rd (vaddr14 s rj d) s) :
    IsStore i n rd fun s => vaddr14 s rj d :=
  ⟨hd, hs, h, fun _ _ he => vaddr14_congr (he rj hr) d⟩

theorem isStoreX {i : Instr} {n : AccessSize} {rd rj rk : RegNum} (hd : destReg? i = none)
    (hs : rd ∈ sourceRegs i) (hr : rj ∈ sourceRegs i) (hk : rk ∈ sourceRegs i)
    (h : ∀ s, memAccess? i s = some ⟨vaddrX s rj rk, n, .store⟩ ∧
      exec i s = store n rd (vaddrX s rj rk) s) :
    IsStore i n rd fun s => vaddrX s rj rk :=
  ⟨hd, hs, h, fun _ _ he => vaddrX_congr (he rj hr) (he rk hk)⟩

/-- Every instruction is a prefetch, a load or a store. -/
theorem exec_cases (i : Instr) :
    IsPrefetch i ∨ (∃ n extend rd v, IsLoad i n extend rd v) ∨ ∃ n rd v, IsStore i n rd v := by
  cases i with
  | ldB rd rj d | ldH rd rj d | ldW rd rj d | ldD rd rj d | ldBu rd rj d | ldHu rd rj d | ldWu rd rj d =>
    exact .inr (.inl ⟨_, _, _, _, isLoad12 (rj := rj) rfl (by simp [sourceRegs]) fun _ => ⟨rfl, rfl⟩⟩)
  | ldptrW rd rj d | ldptrD rd rj d =>
    exact .inr (.inl ⟨_, _, _, _, isLoad14 (rj := rj) rfl (by simp [sourceRegs]) fun _ => ⟨rfl, rfl⟩⟩)
  | ldxB rd rj rk | ldxH rd rj rk | ldxW rd rj rk | ldxD rd rj rk | ldxBu rd rj rk | ldxHu rd rj rk
  | ldxWu rd rj rk =>
    exact .inr (.inl ⟨_, _, _, _, isLoadX (rj := rj) (rk := rk) rfl (by simp [sourceRegs])
      (by simp [sourceRegs]) fun _ => ⟨rfl, rfl⟩⟩)
  | stB rd rj d | stH rd rj d | stW rd rj d | stD rd rj d =>
    exact .inr (.inr ⟨_, _, _, isStore12 (rd := rd) (rj := rj) rfl (by simp [sourceRegs])
      (by simp [sourceRegs]) fun _ => ⟨rfl, rfl⟩⟩)
  | stptrW rd rj d | stptrD rd rj d =>
    exact .inr (.inr ⟨_, _, _, isStore14 (rd := rd) (rj := rj) rfl (by simp [sourceRegs])
      (by simp [sourceRegs]) fun _ => ⟨rfl, rfl⟩⟩)
  | stxB rd rj rk | stxH rd rj rk | stxW rd rj rk | stxD rd rj rk =>
    exact .inr (.inr ⟨_, _, _, isStoreX (rd := rd) (rj := rj) (rk := rk) rfl (by simp [sourceRegs])
      (by simp [sourceRegs]) (by simp [sourceRegs]) fun _ => ⟨rfl, rfl⟩⟩)
  | preld _ _ _ | preldx _ _ _ => exact .inl ⟨rfl, fun _ => ⟨rfl, rfl⟩⟩

end Sys2Proof.Machine
end

