-- ==== Sys2Proof/Laws/Launch.lean ====
section
/-! SUPPORT. The slots of a text that the launch admits, and what an admitted state says in numbers. -/

namespace Sys2Proof.Machine

theorem toNat_slot {base : Word} {i : Nat} (h : base.toNat + 4 * i < 2 ^ 64) :
    (slot base i).toNat = base.toNat + 4 * i := by
  simp only [slot, BitVec.toNat_add, BitVec.toNat_ofNat]
  omega

theorem toNat_add_four {a : Word} (h : a.toNat + 4 < 2 ^ 64) : (a + 4).toNat = a.toNat + 4 := by
  rw [BitVec.toNat_add]
  exact Nat.mod_eq_of_lt h

theorem toNat_topSlot : topSlot.toNat = 2 ^ 64 - 4 := by decide

/-- The keys of a text that does not wrap rise by 4, as numbers. -/
theorem keysRiseFrom_iff {a : Word} {l : List (Word × InstrWord)} (h : a.toNat + 4 * l.length < 2 ^ 64) :
    keysRiseFrom a l = true ↔
      l.map (fun c => c.1.toNat) = (List.range l.length).map fun i => a.toNat + 4 * i := by
  induction l generalizing a with
  | nil => simp [keysRiseFrom]
  | cons c rest ih =>
    simp only [List.length_cons] at h
    have h4 : (a + 4).toNat = a.toNat + 4 := toNat_add_four (by omega)
    have hstep : ((List.range (rest.length + 1)).map fun i => a.toNat + 4 * i) =
        a.toNat :: (List.range rest.length).map fun i => (a + 4).toNat + 4 * i := by
      simp only [List.range_succ_eq_map, List.map_cons, List.map_map, h4]
      congr 1
      refine List.map_congr_left fun i _ => ?_
      simp only [Function.comp_apply]
      omega
    simp only [keysRiseFrom, Bool.and_eq_true, beq_iff_eq, List.map_cons, List.length_cons, hstep,
      List.cons.injEq, ih (a := a + 4) (by omega)]
    constructor
    · rintro ⟨rfl, h'⟩; exact ⟨rfl, h'⟩
    · rintro ⟨h0, h'⟩; exact ⟨BitVec.eq_of_toNat_eq h0, h'⟩

/-- A text whose keys rise has a word at each of its slots. -/
theorem lookup_slot {a : Word} {l : List (Word × InstrWord)} (hl : keysRiseFrom a l = true)
    (h : a.toNat + 4 * l.length < 2 ^ 64) {i : Nat} (hi : i < l.length) :
    ∃ w, l.lookup (slot a i) = some w := by
  induction l generalizing a i with
  | nil => simp at hi
  | cons c rest ih =>
    simp only [List.length_cons] at h hi
    simp only [keysRiseFrom, Bool.and_eq_true, beq_iff_eq] at hl
    obtain ⟨rfl, hl⟩ := hl
    have h4 : (c.1 + 4).toNat = c.1.toNat + 4 := toNat_add_four (by omega)
    cases i with
    | zero => exact ⟨c.2, by simp [slot, List.lookup]⟩
    | succ j =>
      obtain ⟨w, hw⟩ := ih hl (by omega) (i := j) (by omega)
      have he : slot c.1 (j + 1) = slot (c.1 + 4) j := by
        apply BitVec.eq_of_toNat_eq
        rw [toNat_slot (by omega), toNat_slot (by omega)]
        omega
      have hne : (slot c.1 (j + 1) == c.1) = false := by
        rw [beq_eq_false_iff_ne]
        intro e
        have := congrArg BitVec.toNat e
        rw [toNat_slot (by omega)] at this
        omega
      refine ⟨w, ?_⟩
      simp only [List.lookup, hne]
      rwa [he]

/-- Every key of a text whose keys rise is one of its slots. -/
theorem key_is_slot {a : Word} {l : List (Word × InstrWord)} (hl : keysRiseFrom a l = true)
    (h : a.toNat + 4 * l.length < 2 ^ 64) {c : Word × InstrWord} (hc : c ∈ l) :
    ∃ i, i < l.length ∧ c.1.toNat = a.toNat + 4 * i := by
  have hm := (keysRiseFrom_iff h).mp hl
  have : c.1.toNat ∈ l.map fun c => c.1.toNat := List.mem_map.mpr ⟨c, hc, rfl⟩
  rw [hm, List.mem_map] at this
  obtain ⟨i, hi, he⟩ := this
  exact ⟨i, List.mem_range.mp hi, he.symm⟩

/-- What an admitted state says of its text and its pc, in numbers. -/
theorem admitted_numbers {s : State} (h : admitted s = true) :
    ∃ base : Word, base.toNat + 4 * s.params.text.length < 2 ^ 64 ∧ base.toNat % 4 = 0 ∧
      keysRiseFrom base s.params.text = true ∧
      s.params.endPc.toNat = base.toNat + 4 * s.params.text.length ∧
      ∃ i, i ≤ s.params.text.length ∧ s.pc = slot base i ∧ s.pc.toNat = base.toNat + 4 * i := by
  simp only [admitted, textAligned, noWrapAtTop, textContiguous, Bool.and_eq_true, beq_iff_eq,
    decide_eq_true_eq, List.any_eq_true, List.mem_range] at h
  obtain ⟨⟨⟨⟨⟨⟨-, hp⟩, -⟩, hn⟩, ⟨hk, he⟩, i, hi, hpc⟩, -⟩, -⟩ := h
  have hpn : s.pc.toNat = (textBase s.params).toNat + 4 * i := by
    rw [hpc, toNat_slot (by omega)]
  exact ⟨textBase s.params, hn, by omega, hk, by rw [he, toNat_slot hn], i, by omega, hpc, hpn⟩

end Sys2Proof.Machine
end

