-- ==== Sys2Proof/Laws/PerInstr.lean ====
section
/-! SUPPORT. Statements about every instruction, one lemma per constructor. -/

namespace Sys2Proof.Laws

theorem reg_wf (r : RegNum) : (Operand.reg r.toNat).wf = true := by
  have := r.isLt
  simpa [Operand.wf] using this

theorem hint_wf (h : BitVec 5) : (Operand.hint h.toNat).wf = true := by
  have := h.isLt
  simpa [Operand.wf] using this

theorem si12_wf (d : BitVec 12) : (Operand.si12 d.toInt).wf = true := by
  have h1 := BitVec.le_toInt d
  have h2 := BitVec.toInt_lt (x := d)
  simp only [Operand.wf, Bool.and_eq_true, decide_eq_true_eq]
  omega

theorem si14_wf (d : BitVec 14) : (Operand.si14 d.toInt).wf = true := by
  have h1 := BitVec.le_toInt d
  have h2 := BitVec.toInt_lt (x := d)
  simp only [Operand.wf, Bool.and_eq_true, decide_eq_true_eq]
  omega

theorem operands2RI12_wf (rd rj : RegNum) (d : BitVec 12) :
    (operands2RI12 rd rj d).all Operand.wf = true := by
  simp [operands2RI12, reg_wf, si12_wf]

theorem operands2RI14_wf (rd rj : RegNum) (d : BitVec 14) :
    (operands2RI14 rd rj d).all Operand.wf = true := by
  simp [operands2RI14, reg_wf, si14_wf]

theorem operands3R_wf (rd rj rk : RegNum) : (operands3R rd rj rk).all Operand.wf = true := by
  simp [operands3R, reg_wf]

/-- The operands are in their ranges: "every field value is legal" (R76). -/
def OperandsInRange.Statement (i : Instr) : Prop := i.wf = true

theorem OperandsInRange.ldB (rd rj : RegNum) (d : BitVec 12) :
    OperandsInRange.Statement (.ldB rd rj d) :=
  operands2RI12_wf rd rj d
theorem OperandsInRange.ldH (rd rj : RegNum) (d : BitVec 12) :
    OperandsInRange.Statement (.ldH rd rj d) :=
  operands2RI12_wf rd rj d
theorem OperandsInRange.ldW (rd rj : RegNum) (d : BitVec 12) :
    OperandsInRange.Statement (.ldW rd rj d) :=
  operands2RI12_wf rd rj d
theorem OperandsInRange.ldD (rd rj : RegNum) (d : BitVec 12) :
    OperandsInRange.Statement (.ldD rd rj d) :=
  operands2RI12_wf rd rj d
theorem OperandsInRange.ldBu (rd rj : RegNum) (d : BitVec 12) :
    OperandsInRange.Statement (.ldBu rd rj d) :=
  operands2RI12_wf rd rj d
theorem OperandsInRange.ldHu (rd rj : RegNum) (d : BitVec 12) :
    OperandsInRange.Statement (.ldHu rd rj d) :=
  operands2RI12_wf rd rj d
theorem OperandsInRange.ldWu (rd rj : RegNum) (d : BitVec 12) :
    OperandsInRange.Statement (.ldWu rd rj d) :=
  operands2RI12_wf rd rj d
theorem OperandsInRange.stB (rd rj : RegNum) (d : BitVec 12) :
    OperandsInRange.Statement (.stB rd rj d) :=
  operands2RI12_wf rd rj d
theorem OperandsInRange.stH (rd rj : RegNum) (d : BitVec 12) :
    OperandsInRange.Statement (.stH rd rj d) :=
  operands2RI12_wf rd rj d
theorem OperandsInRange.stW (rd rj : RegNum) (d : BitVec 12) :
    OperandsInRange.Statement (.stW rd rj d) :=
  operands2RI12_wf rd rj d
theorem OperandsInRange.stD (rd rj : RegNum) (d : BitVec 12) :
    OperandsInRange.Statement (.stD rd rj d) :=
  operands2RI12_wf rd rj d
theorem OperandsInRange.ldxB (rd rj rk : RegNum) :
    OperandsInRange.Statement (.ldxB rd rj rk) :=
  operands3R_wf rd rj rk
theorem OperandsInRange.ldxH (rd rj rk : RegNum) :
    OperandsInRange.Statement (.ldxH rd rj rk) :=
  operands3R_wf rd rj rk
theorem OperandsInRange.ldxW (rd rj rk : RegNum) :
    OperandsInRange.Statement (.ldxW rd rj rk) :=
  operands3R_wf rd rj rk
theorem OperandsInRange.ldxD (rd rj rk : RegNum) :
    OperandsInRange.Statement (.ldxD rd rj rk) :=
  operands3R_wf rd rj rk
theorem OperandsInRange.ldxBu (rd rj rk : RegNum) :
    OperandsInRange.Statement (.ldxBu rd rj rk) :=
  operands3R_wf rd rj rk
theorem OperandsInRange.ldxHu (rd rj rk : RegNum) :
    OperandsInRange.Statement (.ldxHu rd rj rk) :=
  operands3R_wf rd rj rk
theorem OperandsInRange.ldxWu (rd rj rk : RegNum) :
    OperandsInRange.Statement (.ldxWu rd rj rk) :=
  operands3R_wf rd rj rk
theorem OperandsInRange.stxB (rd rj rk : RegNum) :
    OperandsInRange.Statement (.stxB rd rj rk) :=
  operands3R_wf rd rj rk
theorem OperandsInRange.stxH (rd rj rk : RegNum) :
    OperandsInRange.Statement (.stxH rd rj rk) :=
  operands3R_wf rd rj rk
theorem OperandsInRange.stxW (rd rj rk : RegNum) :
    OperandsInRange.Statement (.stxW rd rj rk) :=
  operands3R_wf rd rj rk
theorem OperandsInRange.stxD (rd rj rk : RegNum) :
    OperandsInRange.Statement (.stxD rd rj rk) :=
  operands3R_wf rd rj rk
theorem OperandsInRange.ldptrW (rd rj : RegNum) (d : BitVec 14) :
    OperandsInRange.Statement (.ldptrW rd rj d) :=
  operands2RI14_wf rd rj d
theorem OperandsInRange.ldptrD (rd rj : RegNum) (d : BitVec 14) :
    OperandsInRange.Statement (.ldptrD rd rj d) :=
  operands2RI14_wf rd rj d
theorem OperandsInRange.stptrW (rd rj : RegNum) (d : BitVec 14) :
    OperandsInRange.Statement (.stptrW rd rj d) :=
  operands2RI14_wf rd rj d
theorem OperandsInRange.stptrD (rd rj : RegNum) (d : BitVec 14) :
    OperandsInRange.Statement (.stptrD rd rj d) :=
  operands2RI14_wf rd rj d
theorem OperandsInRange.preld (h : BitVec 5) (rj : RegNum) (d : BitVec 12) :
    OperandsInRange.Statement (.preld h rj d) := by
  simp [OperandsInRange.Statement, Instr.wf, Instr.parts, hint_wf, reg_wf, si12_wf]
theorem OperandsInRange.preldx (h : BitVec 5) (rj rk : RegNum) :
    OperandsInRange.Statement (.preldx h rj rk) := by
  simp [OperandsInRange.Statement, Instr.wf, Instr.parts, hint_wf, reg_wf]

end Sys2Proof.Laws
end

