-- ==== Sys2Proof/Tests/Slice0.lean ====
section
/-! SUPPORT. The model's own tests, each expectation taken from 95_test_vectors.md or an encoding table of
30_encoding.md; and for every statement with hypotheses, a case that meets them. -/

namespace Sys2Proof.Tests

open Sys2Proof Sys2Proof.Machine

/-! ### Well-formedness: each check refuses an ill-formed operand (R13, R82) -/

theorem test_wf_reg : (Operand.reg 31).wf = true ∧ (Operand.reg 32).wf = false := by decide
theorem test_wf_hint : (Operand.hint 31).wf = true ∧ (Operand.hint 32).wf = false := by decide
theorem test_wf_si12_high : (Operand.si12 2047).wf = true ∧ (Operand.si12 2048).wf = false := by decide
theorem test_wf_si12_low : (Operand.si12 (-2048)).wf = true ∧ (Operand.si12 (-2049)).wf = false := by decide
theorem test_wf_si14_high : (Operand.si14 8191).wf = true ∧ (Operand.si14 8192).wf = false := by decide
theorem test_wf_si14_low : (Operand.si14 (-8192)).wf = true ∧ (Operand.si14 (-8193)).wf = false := by decide

/-- A listing in the form of R82, the third operand of `ldptr` being the field (D26). -/
theorem test_listing_parts : (Instr.ldptrW 4 5 0x2000).parts =
    ("ldptr.w", [.reg 4, .reg 5, .si14 (-8192)]) := by
  decide

/-! ### Decoding: every constructor by a word written out from R72 to R79 or section 4.1 of
95_test_vectors.md, bits from the opcode down -/

theorem test_decode_ldB : decode 0b0010100000_000000000000_00101_00100 = .ok (.ldB 4 5 0) := by decide
theorem test_decode_ldH : decode 0b0010100001_111111110000_00110_00100 = .ok (.ldH 4 6 0xFF0) := by decide
theorem test_decode_ldW : decode 0b0010100010_000000001100_00101_00100 = .ok (.ldW 4 5 12) := by decide
theorem test_decode_ldD : decode 0b0010100011_100000000000_00000_00000 = .ok (.ldD 0 0 0x800) := by decide
theorem test_decode_stB : decode 0b0010100100_000000000001_00101_01100 = .ok (.stB 12 5 1) := by decide
theorem test_decode_stH : decode 0b0010100101_000000000010_00101_01100 = .ok (.stH 12 5 2) := by decide
theorem test_decode_stW : decode 0b0010100110_100000000000_00010_00001 = .ok (.stW 1 2 0x800) := by decide
theorem test_decode_stD : decode 0b0010100111_111111111111_11111_11111 = .ok (.stD 31 31 0xFFF) := by decide
theorem test_decode_ldBu : decode 0b0010101000_000000000111_00101_00100 = .ok (.ldBu 4 5 7) := by decide
theorem test_decode_ldHu : decode 0b0010101001_000000000001_01011_01010 = .ok (.ldHu 10 11 1) := by decide
theorem test_decode_ldWu : decode 0b0010101010_011111111111_00010_00001 = .ok (.ldWu 1 2 0x7FF) := by decide
theorem test_decode_preld : decode 0b0010101011_000001000000_00101_00000 = .ok (.preld 0 5 64) := by decide
theorem test_decode_ldptrW : decode 0b00100100_01111111111111_00101_00100 =
    .ok (.ldptrW 4 5 0x1FFF) := by decide
theorem test_decode_stptrW : decode 0b00100101_00000000000011_00101_01100 =
    .ok (.stptrW 12 5 3) := by decide
theorem test_decode_ldptrD : decode 0b00100110_11111111111110_00110_00100 =
    .ok (.ldptrD 4 6 0x3FFE) := by decide
theorem test_decode_stptrD : decode 0b00100111_11111111111100_00110_01100 =
    .ok (.stptrD 12 6 0x3FFC) := by decide
theorem test_decode_ldxB : decode 0b00111000000000000_01000_00110_00100 = .ok (.ldxB 4 6 8) := by decide
theorem test_decode_ldxH : decode 0b00111000000001000_01000_00110_00100 = .ok (.ldxH 4 6 8) := by decide
theorem test_decode_ldxW : decode 0b00111000000010000_00111_00101_00100 = .ok (.ldxW 4 5 7) := by decide
theorem test_decode_ldxD : decode 0b00111000000011000_00111_00101_00100 = .ok (.ldxD 4 5 7) := by decide
theorem test_decode_stxB : decode 0b00111000000100000_00111_00101_01100 = .ok (.stxB 12 5 7) := by decide
theorem test_decode_stxH : decode 0b00111000000101000_01000_00110_01100 = .ok (.stxH 12 6 8) := by decide
theorem test_decode_stxW : decode 0b00111000000110000_00111_00101_01100 = .ok (.stxW 12 5 7) := by decide
theorem test_decode_stxD : decode 0b00111000000111000_00000_00101_01100 = .ok (.stxD 12 5 0) := by decide
theorem test_decode_ldxBu : decode 0b00111000001000000_01000_00110_00100 = .ok (.ldxBu 4 6 8) := by decide
theorem test_decode_ldxHu : decode 0b00111000001001000_01000_00110_00100 = .ok (.ldxHu 4 6 8) := by decide
theorem test_decode_ldxWu : decode 0b00111000001010000_00001_00000_11111 = .ok (.ldxWu 31 0 1) := by decide
theorem test_decode_preldx : decode 0b00111000001011000_01000_00110_01000 = .ok (.preldx 8 6 8) := by decide

theorem test_decode_below_ldptr : decode 0x23FFFFFF = .error (.notInScope 0x23FFFFFF) := by decide
theorem test_decode_after_preld : decode 0x2B000000 = .error (.notInScope 0x2B000000) := by decide
theorem test_decode_bit_15_set : decode 0x38008000 = .error (.notInScope 0x38008000) := by decide
theorem test_decode_after_preldx : decode 0x38300000 = .error (.notInScope 0x38300000) := by decide

/-- The bytes of `ld.d r1, r3, 8` as memory holds them, lowest address first (R70). -/
theorem test_decodeBytes_order : decodeBytes [0x61, 0x20, 0xC0, 0x28, 0xAA] = .ok (.ldD 1 3 8, [0xAA]) := by
  decide
theorem test_decodeTableWord : decodeTableWord 32 0x28C02061 = some (.ldD 1 3 8) := by decide

/-! ### State E of 95_test_vectors.md section 2 -/

/-- The 16 bytes of state E; the last one, 0x00 at 0x100F, is not listed. -/
def exCells : List Host.Cell :=
  [(0x1000, 0xFF), (0x1001, 0xEE), (0x1002, 0xDD), (0x1003, 0xCC), (0x1004, 0xBB), (0x1005, 0xAA),
   (0x1006, 0x99), (0x1007, 0x88), (0x1008, 0x77), (0x1009, 0x66), (0x100A, 0x55), (0x100B, 0x44),
   (0x100C, 0x33), (0x100D, 0x22), (0x100E, 0x11)]

/-- The memory of state E. -/
def exMem : Memory := { domain := [{ base := 0x1000, size := 16 }], cells := exCells }

/-- Parameters with the two alignment flags, the defaults of the others, and no text. -/
def exParams (hw env : Bool) : Params :=
  { text := [], endPc := 0x4000, ualHw := hw, ualEnv := env, illegal := [], xlat := [] }

/-- Registers with the values of E, and `x9` as given. -/
def exRegs (x9 : Word) : Vector Word 31 :=
  (((((Vector.replicate 31 0).set 4 0x1000).set 5 0x1010).set 6 8).set 7 0xFFFFFFFFFFFFFFFA).set 11
    0xFEDCBA9876543210 |>.set 8 x9

/-- State E at 0x4000, with both alignment flags equal and `x9` as given. -/
def exState (ual : Bool) (x9 : Word := 0) : State :=
  { x := exRegs x9, pc := 0x4000, mem := exMem, params := exParams ual ual }

/-- One step with the word placed at the pc. -/
def runWord (s : State) (w : Nat) : Answer State := step (s.withFetchWord 32 w)

/-- A register after a completed step. -/
def grAfter (o : Answer State) (r : RegNum) : Option Word := (completed? o).map fun t => t.gr r

/-- The n bytes from an address after a completed step. -/
def bytesAfter (o : Answer State) (a n : Nat) : Option (List (Option Byte)) :=
  (completed? o).map fun t => (List.range n).map fun i => t.mem.read? (a + i)

/-- The fault of an answer. -/
def fault? (o : Answer State) : Option Fault :=
  match o with
  | .fault f => some f
  | _ => none

/-- The refusal of an answer. -/
def refusal? (o : Answer State) : Option Refusal :=
  match o with
  | .refused r => some r
  | _ => none

theorem test_exState_canonical : (exState false).mem.wf = true := by decide

/-! ### One step each (sections 3.1 to 3.6 of 95_test_vectors.md) -/

theorem test_ldB_sign : grAfter (runWord (exState false) 0x280000A4) 4 =
    some 0xFFFFFFFFFFFFFFFF := by decide

/-- One byte at the top of the address space. -/
def topByte : State :=
  { exState false with mem :=
    { domain := [{ base := 2 ^ 64 - 1, size := 1 }], cells := [(2 ^ 64 - 1, 0x80)] } }

theorem test_ldB_top_of_memory : grAfter (runWord (topByte) 0x283FFC04) 4 =
    some 0xFFFFFFFFFFFFFF80 := by decide
theorem test_ldH_negative_displacement : grAfter (runWord (exState false) 0x287FC0C4) 4 =
    some 0xFFFFFFFFFFFFEEFF := by
  decide
theorem test_ldH_r0_still_checked : fault? (runWord (exState false) 0x284004A0) =
    some (.unaligned 0x1001 .load 0x4000) := by decide
theorem test_ldW_bytes_would_wrap : fault? (runWord (exState true) 0x28BFF804) =
    some (.addressError 0xFFFFFFFFFFFFFFFE .load 0x4000) := by decide

/-- Blocks 0x1000 and 0x1008 lie apart in physical memory. -/
def seam : State :=
  { exState true with params := { exParams true true with
    xlat := [{ firstBlock := 0x200, blocks := 1, kind := none, target := .ok 0x9000 },
      { firstBlock := 0x201, blocks := 1, kind := none, target := .ok 0x5008 }] } }

theorem test_ldW_over_a_seam : refusal? (runWord seam 0x288018A4) = some .nonContiguousAccess := by decide

/-- Block 0x1000 faults with cause 7. -/
def faulting : State :=
  { exState false with params := { exParams false false with
    xlat := [{ firstBlock := 0x200, blocks := 1, kind := none, target := .fault 7 }] } }

theorem test_ldD_translation_fault : fault? (runWord (faulting) 0x28C000A4) =
    some (.translationFault 7 0x1000 .load 0x4000) := by decide

/-- Eight bytes at 0x10, and a base that the displacement 24 wraps to 0x10. -/
def wrapping : State :=
  { exState false 0xFFFFFFFFFFFFFFF8 with mem :=
    { domain := [{ base := 0x10, size := 8 }],
      cells := [(0x10, 0xA0), (0x11, 0xA1), (0x12, 0xA2), (0x13, 0xA3), (0x14, 0xA4), (0x15, 0xA5),
        (0x16, 0xA6), (0x17, 0xA7)] } }

theorem test_ldD_sum_wraps : grAfter (runWord (wrapping) 0x28C06124) 4 =
    some 0xA7A6A5A4A3A2A1A0 := by decide
theorem test_ldBu_zero : grAfter (runWord (exState false) 0x2A001CA4) 4 = some 0x88 := by decide
/-- Address 0x1010 does not exist (R50). -/
theorem test_ldBu_absent : fault? (runWord (exState false) 0x2A0040A4) = some (.stuck 0x4000) := by decide
theorem test_ldHu_zero : grAfter (runWord (exState false) 0x2A4000A4) 4 = some 0xEEFF := by decide
/-- One of the two flags alone permits nothing (R47). -/
theorem test_ldHu_one_flag :
    fault? (runWord { exState false with params := exParams true false } 0x2A4004A4) =
      some (.unaligned 0x1001 .load 0x4000) := by decide
theorem test_ldWu_misaligned_allowed : grAfter (runWord (exState true) 0x2A8018A4) 4 = some 0x66778899 := by
  decide

/-- E's memory at 0x9000, and the translation that leads there. -/
def displaced : State :=
  { exState false with
    mem := { domain := [{ base := 0x9000, size := 16 }], cells := exCells.map fun c => (c.1 + 0x8000, c.2) }
    params := { exParams false false with
      xlat := [{ firstBlock := 0x200, blocks := 2, kind := none, target := .ok 0x9000 }] } }

theorem test_ldWu_translated : grAfter (runWord (displaced) 0x2A8010A4) 4 = some 0x8899AABB := by decide
theorem test_stB_one_byte : bytesAfter (runWord (exState false) 0x290004AC) 0x1000 8 =
    some ([0xFF, 0x10, 0xDD, 0xCC, 0xBB, 0xAA, 0x99, 0x88].map some) := by decide

/-- The word of `st.b r12, r5, 11` placed so that its text is the four bytes from 0x1008 on. -/
def textAtData : State := { exState false with pc := 0x1008 }

theorem test_stB_into_text : refusal? (runWord textAtData 0x29002CAC) = some .storeToText := by decide

theorem test_stH_two_bytes : bytesAfter (runWord (exState false) 0x294008AC) 0x1000 8 =
    some ([0xFF, 0xEE, 0x10, 0x32, 0xBB, 0xAA, 0x99, 0x88].map some) := by decide
theorem test_stH_misaligned_allowed : bytesAfter (runWord (exState true) 0x29401CAC) 0x1000 10 =
    some ([0xFF, 0xEE, 0xDD, 0xCC, 0xBB, 0xAA, 0x99, 0x10, 0x32, 0x66].map some) := by decide
theorem test_stW_four_bytes : bytesAfter (runWord (exState false) 0x298010AC) 0x1000 8 =
    some ([0xFF, 0xEE, 0xDD, 0xCC, 0x10, 0x32, 0x54, 0x76].map some) := by decide

/-- `AddrLegal` rejects 0x1000 and above. -/
def illegalHigh : State :=
  { exState false with params := { exParams false false with
    illegal := [{ first := 0x1000, last := 0xFFFFFFFFFFFFFFFF, size := none, kind := none }] } }

theorem test_stW_illegal : fault? (runWord (illegalHigh) 0x298000AC) =
    some (.addressError 0x1000 .store 0x4000) := by decide
theorem test_stD_register_zero : bytesAfter (runWord (exState false) 0x29C020A0) 0x1008 8 =
    some ([0x00, 0x00, 0x00, 0x00, 0x00, 0x00, 0x00, 0x00].map some) := by decide
theorem test_stD_partly_absent : fault? (runWord (exState true) 0x29C030AC) =
    some (.stuck 0x4000) := by decide
theorem test_ldxB_negative_index : grAfter (runWord (exState false) 0x380020C4) 4 = some 0x55 := by decide
theorem test_ldxH_index : grAfter (runWord (exState false) 0x380420C4) 4 = some 0x4455 := by decide
theorem test_ldxH_misaligned_allowed : grAfter (runWord (exState true 7) 0x380424A4) 4 = some 0x7788 := by
  decide
theorem test_ldxW_destination_is_index : grAfter (runWord (exState false) 0x38081CA7) 7 =
    some 0x44556677 := by
  decide
theorem test_ldxW_sign : grAfter (runWord (exState false) 0x380800A4) 4 =
    some 0xFFFFFFFFCCDDEEFF := by decide
theorem test_ldxD_register_zero_index : grAfter (runWord (exState false) 0x380C00A4) 4 =
    some 0x8899AABBCCDDEEFF := by
  decide
theorem test_ldxBu_zero : grAfter (runWord (exState false) 0x382000A4) 4 = some 0xFF := by decide
theorem test_ldxHu_zero : grAfter (runWord (exState false) 0x382400A4) 4 = some 0xEEFF := by decide
theorem test_ldxWu_zero : grAfter (runWord (exState false) 0x382800A4) 4 = some 0xCCDDEEFF := by decide
theorem test_stxB_index : bytesAfter (runWord (exState false) 0x38101CAC) 0x1008 8 =
    some ([0x10, 0x66, 0x55, 0x44, 0x33, 0x22, 0x11, 0x00].map some) := by decide
theorem test_stxH_negative_index : bytesAfter (runWord (exState false) 0x381420CC) 0x1008 8 =
    some ([0x77, 0x66, 0x10, 0x32, 0x33, 0x22, 0x11, 0x00].map some) := by decide
theorem test_stxW_index : bytesAfter (runWord (exState false) 0x38181CAC) 0x1008 8 =
    some ([0x10, 0x32, 0x54, 0x76, 0x33, 0x22, 0x11, 0x00].map some) := by decide
theorem test_stxD_register_zero_index : bytesAfter (runWord (exState false) 0x381C00AC) 0x1000 8 =
    some ([0x10, 0x32, 0x54, 0x76, 0x98, 0xBA, 0xDC, 0xFE].map some) := by decide

/-- Four bytes at an address, and `x9`. -/
def fourAt (a : Nat) (x9 : Word) : State :=
  { exState false x9 with mem :=
    { domain := [{ base := a, size := 4 }],
      cells := [(a, 0x10), (a + 1, 0x11), (a + 2, 0x12), (a + 3, 0x13)] } }

theorem test_ldptrW_lowest_displacement : grAfter (runWord (fourAt 0 0x8000) 0x24800124) 4 =
    some 0x13121110 := by
  decide
theorem test_ldptrW_highest_displacement : grAfter (runWord (fourAt 0x7FFC 0) 0x247FFD24) 4 =
    some 0x13121110 := by
  decide
theorem test_ldptrD_negative : grAfter (runWord (exState false) 0x26FFF8C4) 4 =
    some 0x0011223344556677 := by
  decide
theorem test_ldptrD_misaligned : fault? (runWord (exState false) 0x260004A4) =
    some (.unaligned 0x1004 .load 0x4000) := by decide
theorem test_stptrW_displacement : bytesAfter (runWord (exState false) 0x25000CAC) 0x1008 8 =
    some ([0x77, 0x66, 0x55, 0x44, 0x10, 0x32, 0x54, 0x76].map some) := by decide
theorem test_stptrW_misaligned_allowed : bytesAfter (runWord (exState true 0x1001) 0x2500052C) 0x1000 10 =
    some ([0xFF, 0xEE, 0xDD, 0xCC, 0xBB, 0x10, 0x32, 0x54, 0x76, 0x66].map some) := by decide
theorem test_stptrD_negative : bytesAfter (runWord (exState false) 0x27FFF0CC) 0x1000 8 =
    some ([0x10, 0x32, 0x54, 0x76, 0x98, 0xBA, 0xDC, 0xFE].map some) := by decide
theorem test_stptrD_misaligned : fault? (runWord (exState false 0x1001) 0x2700012C) =
    some (.unaligned 0x1001 .store 0x4000) := by decide
theorem test_preld_outside_memory :
    completed? (runWord (exState false) 0x2AC100A0) =
      some ((exState false).withFetchWord 32 0x2AC100A0).advance := by decide
theorem test_preld_undefined_hint :
    completed? (runWord (exState false) 0x2AC0001F) =
      some ((exState false).withFetchWord 32 0x2AC0001F).advance := by decide
theorem test_preldx_every_field_set :
    completed? (runWord (exState false) 0x382C20C8) =
      some ((exState false).withFetchWord 32 0x382C20C8).advance := by decide

/-- The field decomposition example of 95_test_vectors.md section 3.4. -/
theorem test_preldx_fields : preldxFields 0x0000400302000040 =
    { offset := 0x0040, descending := false, blockSize := 0x20, blockNumLess1 := 3, stride := 4 } := by
  decide

/-! ### Steps and launches -/

/-- A text of one word that is none of the 28 (program P5, R80). -/
theorem test_step_not_in_scope :
    refusal? (runWord (exState false) 0x4C000020) = some (.notInScope 0x4000 0x4C000020) := by decide

theorem test_step_at_reset_is_over : refusal? (step State.reset) = some .ended := by decide

/-- A state with a program of one `ld.d r4, r5, 0` at 0x4000. -/
def oneWord : State := (exState false).withFetchWord 32 0x28C000A4

theorem test_fetch_misaligned :
    fault? (step { oneWord with pc := 0x4002 }) = some (.fetchMisaligned 0x4002) := by decide
theorem test_fetch_outside_text :
    fault? (step { oneWord with pc := 0x4008 }) = some (.fetchOutsideText 0x4008) := by decide
theorem test_step_at_end : refusal? (step { oneWord with pc := 0x4004 }) = some .ended := by decide

/-- A text that contains the address 2^64 - 4 (R24). -/
def topText : State := { exState false with pc := topSlot }.withFetchWord 32 0x28C000A4

theorem test_step_wraps : refusal? (step topText) = some .wrapAtTop := by decide
theorem test_launch_wraps : refusal? (launch topText) = some .wrapAtTop := by decide
theorem test_launch_accepts : completed? (launch oneWord) = some oneWord := by decide
theorem test_launch_aligned :
    refusal? (launch { oneWord with pc := 0x4002 }) = some (.illFormedLaunch .textAligned) := by decide
theorem test_launch_contiguous :
    refusal? (launch { oneWord with pc := 0x4008 }) = some (.illFormedLaunch .textContiguous) := by decide

/-- The keys 2^64 - 8 and 0x1000: the base is the first listed key (log 27). -/
def twoKeys : State :=
  { oneWord with params := { oneWord.params with text := [(topSlot - 4, 0), (0x1000, 0)] } }

theorem test_launch_base_of_scattered_text : refusal? (launch twoKeys) = some .wrapAtTop := by decide

/-- An entry of the translation that leads beyond 2^64. -/
def beyond : State :=
  { oneWord with params := { oneWord.params with
    xlat := [{ firstBlock := 0, blocks := 2, kind := none, target := .ok (2 ^ 64 - 8) }] } }

theorem test_launch_translate :
    refusal? (launch beyond) = some (.illFormedLaunch .translateBlockwise) := by decide

/-- A memory that lists a byte equal to what an unlisted one reads as. -/
def notCanonical : State := { oneWord with mem := { exMem with cells := [(0x1000, 0)] } }

theorem test_launch_canonical :
    refusal? (launch notCanonical) = some (.illFormedLaunch .memoryCanonical) := by decide

/-! ### Witnesses: cases that meet the hypotheses of the statements -/

theorem next_of_isSome {o : Answer State} (h : (completed? o).isSome = true) : ∃ t, o = .next t := by
  cases o with
  | next t => exact ⟨t, rfl⟩
  | fault f => cases h
  | refused r => cases h

theorem next_of_completed {o : Answer State} {t : State} (h : completed? o = some t) : o = .next t := by
  cases o with
  | next u => cases h; rfl
  | fault f => cases h
  | refused r => cases h

theorem fault_of_fault? {o : Answer State} {f : Fault} (h : fault? o = some f) : o = .fault f := by
  cases o with
  | next u => cases h
  | fault g => cases h; rfl
  | refused r => cases h

theorem refused_of_refusal? {o : Answer State} {r : Refusal} (h : refusal? o = some r) : o =
    .refused r := by
  cases o with
  | next u => cases h
  | fault g => cases h
  | refused q => cases h; rfl

theorem witness_DecodeEncodeRoundTrip : (Instr.stptrD 31 31 0x2000).wf = true := by decide

theorem witness_EncodeDecodeRoundTrip : decode 0x29FFFFFF = .ok (.stD 31 31 0xFFF) := by decide

/-- A word that decodes, one that matches no row, one that matches a row, the same row twice. -/
theorem witness_DecodeFollowsTheOpcodeMaps :
    decode 0x24000000 = .ok (.ldptrW 0 0 0) ∧ (∀ i, (0 : InstrWord) &&& (opcodeRow i).1 ≠ (opcodeRow i).2) ∧
      (0x382C7FFF : InstrWord) &&& (opcodeRow (.preldx 31 31 31)).1 = (opcodeRow (.preldx 31 31 31)).2 ∧
      (0x382C7FFF : InstrWord) &&& (opcodeRow (.preldx 0 0 0)).1 = (opcodeRow (.preldx 0 0 0)).2 := by
  refine ⟨by decide, fun i => ?_, by decide, by decide⟩
  cases i <;> simp [opcodeRow]

theorem witness_BytesDecodeLittleEndian :
    decode 0x28C02061 = .ok (.ldD 1 3 8) ∧ ([] : List Byte).length < 4 ∧ [1#8, 2, 3].length < 4 := by decide

/-- A load that goes through, an access that is refused by a fault, a store that goes through. -/
theorem witness_RegisterZeroIsHardwired :
    access (exState false) 0x1008 .doubleword .load = .next 0x1008 ∧
      memRead exMem 0x1008 8 = some (0x0011223344556677 : BitVec 64) ∧
      access (exState false) 0x1001 .halfword .load = .fault (.unaligned 0x1001 .load 0x4000) ∧
      access (exState false) 0x1000 .byte .store = .next 0x1000 ∧
      hitsText (exState false).params 0x1000 AccessSize.byte.bytes = false ∧
      (memWrite exMem 0x1000 AccessSize.byte.bytes 0).isSome = true := by
  refine ⟨rfl, by decide, rfl, rfl, by decide, by decide⟩

theorem witness_RegisterWriteReadsBack : (31 : RegNum) ≠ 0 ∧ (1 : RegNum) ≠ 31 ∧
    (0 : RegNum) ≠ 31 := by decide

theorem witness_ExtensionsAsNumbers : (0 < 1 ∧ 1 ≤ 64) ∧ 0 < 64 ∧ 64 ≤ 64 := by decide

theorem witness_MemReadIsLittleEndian :
    memRead exMem 0x1008 8 = some (0x0011223344556677 : BitVec 64) := by decide

/-- A store that writes, and one that meets the text at its first byte. -/
theorem witness_MemWriteWritesItsBytes :
    exMem.wf = true ∧ (memWrite exMem 0x100C AccessSize.word.bytes (0x01020304 : BitVec 32)).isSome = true ∧
      access (textAtData.withFetchWord 32 0) 0x1008 .byte .store = .next 0x1008 ∧
      hitsText (textAtData.withFetchWord 32 0).params 0x1008 AccessSize.byte.bytes = true := by
  refine ⟨by decide, by decide, rfl, by decide⟩

/-- A store at 0x1002 and a load at 0x1001 that has a byte before and two bytes of the store, and the
numbers of R42 at 0x1008. -/
theorem witness_MixedWidthAccesses :
    exMem.wf = true ∧
      ((memWrite exMem 0x1002 2 (0xABCD : BitVec 16)).bind fun m =>
        memRead m 0x1001 4) = some (0xBBABCDEE : BitVec 32) ∧
      ((memWrite exMem 0x1008 8 (0x1122334455667788 : BitVec 64)).bind fun m =>
        memWrite m 0x1009 1 (0xAB : BitVec 8)).isSome = true := by decide

theorem witness_CanonicalMemoriesReadingAlikeAreEqual :
    exMem.wf = true ∧ ∀ a, exMem.read? a = exMem.read? a := ⟨by decide, fun _ => rfl⟩

/-- One byte at the last physical address. -/
theorem witness_EveryPhysMemIsRepresented :
    ∀ a, Config.physTop ≤ a → (if a = 2 ^ 64 - 1 then some (0x80 : Byte) else none) = none := by
  intro a h
  exact if_neg (by simp only [Config.physTop] at h; omega)

/-- The last byte is legal; a word two bytes before the end is not, whatever the spans. -/
theorem witness_AddrLegalRejectsWraps :
    addrLegal [] 0xFFFFFFFFFFFFFFFF .byte .load = true ∧
      memAccess? (.ldW 4 0 0xFFE) (exState false) = some ⟨0xFFFFFFFFFFFFFFFE, .word, .load⟩ ∧
      addrLegal (exState false).params.illegal 0xFFFFFFFFFFFFFFFE .word .load = false ∧
      memAccess? (.stW 12 5 0) illegalHigh = some ⟨0x1000, .word, .store⟩ ∧
      addrLegal illegalHigh.params.illegal 0x1000 .word .store = false := by decide

/-- The check that rejects nothing but a wrap. -/
theorem witness_EveryAddrLegalIsRepresented :
    ∀ (v : Word) (n : AccessSize) (_ : AccessKind), decide (v.toNat + n.bytes ≤ 2 ^ 64) = true →
      v.toNat + n.bytes ≤ 2 ^ 64 := fun _ _ _ h => of_decide_eq_true h

theorem witness_TranslateActsOnBlocks :
    (0x1008 : Word).toNat % 8 = 0 ∧ 7 < 8 ∧
      translateAddr displaced.params.xlat 0x1008 .load = .ok 0x9008 ∧
      (0x1000 : Word).toNat % 8 = 0 ∧ translateAddr faulting.params.xlat 0x1000 .load = .fault 7 ∧
      translateBlockwise displaced.params.xlat = true := by decide

/-- The identity. -/
theorem witness_EveryTranslateIsRepresented :
    (∀ (v : Word) (p : Nat), XlatResult.ok v.toNat = .ok p → p < 2 ^ 64) ∧
      ∀ (a : Word) (i : Nat), a.toNat % 8 = 0 → i < 8 →
        (∀ p, XlatResult.ok a.toNat = .ok p → XlatResult.ok (a + BitVec.ofNat 64 i).toNat = .ok (p + i)) ∧
        ∀ c, XlatResult.ok a.toNat = .fault c → XlatResult.ok (a + BitVec.ofNat 64 i).toNat = .fault c := by
  refine ⟨fun v p h => by cases h; exact v.isLt, fun a i h hi => ⟨fun p hp => ?_, fun c hc => by cases hc⟩⟩
  cases hp
  have := a.isLt
  rw [BitVec.toNat_add, BitVec.toNat_ofNat, XlatResult.ok.injEq]
  omega

theorem witness_AlignedAccessStaysInOneBlock :
    addrLegal displaced.params.illegal 0x1008 .doubleword .load = true ∧
      (0x1008 : Word).toNat % AccessSize.doubleword.bytes = 0 ∧
      translateAddr displaced.params.xlat 0x1008 .load = .ok 0x9008 ∧
      addrLegal faulting.params.illegal 0x1004 .word .load = true ∧
      (0x1004 : Word).toNat % AccessSize.word.bytes = 0 ∧
      translateAddr faulting.params.xlat 0x1004 .load = .fault 7 := by decide

/-- The equivalence is met from both sides, and the second clause's premise holds of a byte access. -/
theorem witness_UnalignedExactlyWhen :
    exec (.ldH 0 5 1) (exState false) = .fault (.unaligned 0x1001 .load 0x4000) ∧
      ∀ a, memAccess? (.ldB 4 5 1) (exState false) = some a → a.size = .byte := by
  refine ⟨fault_of_fault? (by decide), fun a h => ?_⟩
  simp only [memAccess?, Option.some.injEq] at h
  rw [← h]

theorem witness_AddressErrorExactlyWhen :
    exec (.stW 12 5 0) illegalHigh = .fault (.addressError 0x1000 .store 0x4000) :=
  fault_of_fault? (by decide)

/-- Block 0x1008 alone faults, with cause 9, and misaligned access is permitted. -/
def faultingHigh : State :=
  { exState true with params := { exParams true true with
    xlat := [{ firstBlock := 0x201, blocks := 1, kind := none, target := .fault 9 }] } }

/-- A fault at byte 0, a fault first met at byte 2, and the identity translation. -/
theorem witness_TranslationFaultExactlyWhen :
    exec (.ldD 4 5 0) faulting = .fault (.translationFault 7 0x1000 .load 0x4000) ∧
      translateAddr faultingHigh.params.xlat 0x1007 .load = .ok 0x1007 ∧
      translateAddr faultingHigh.params.xlat 0x1008 .load = .fault 9 ∧
      exec (.ldW 4 5 6) faultingHigh = .fault (.translationFault 9 0x1006 .load 0x4000) ∧
      (exState false).params.xlat = [] :=
  ⟨fault_of_fault? (by decide), by decide, by decide, fault_of_fault? (by decide), rfl⟩

theorem witness_NonContiguousAccessExactlyWhen :
    exec (.ldW 4 5 6) seam = .refused .nonContiguousAccess := refused_of_refusal? (by decide)

theorem witness_StoreToTextExactlyWhen :
    exec (.stB 12 5 11) (textAtData.withFetchWord 32 0) = .refused .storeToText :=
  refused_of_refusal? (by decide)

theorem witness_StuckExactlyWhen : exec (.stD 12 5 12) (exState true) = .fault (.stuck 0x4000) :=
  fault_of_fault? (by decide)

theorem witness_NoOtherStops :
    exec (.stD 12 5 12) (exState true) = .fault (.stuck 0x4000) ∧
      exec (.ldW 4 5 6) seam = .refused .nonContiguousAccess :=
  ⟨fault_of_fault? (by decide), refused_of_refusal? (by decide)⟩

/-- The bytes of E from an address on. -/
def exBytes (a : Nat) (i : Nat) : Byte := cellAt exCells (a + i)

theorem witness_ByteLoadsComplete :
    Reaches (exState false) 0x100F .byte .load 0x100F ∧ Holds exMem 0x100F 1 (exBytes 0x100F) ∧
      0x100F = vaddr12 (exState false) 5 15 ∧ 0x100F = vaddrX (exState false 15) 5 9 := by decide

/-- A misaligned address, which both flags permit. -/
theorem witness_HalfwordLoadsComplete :
    Reaches (exState true 7) 0x1007 .halfword .load 0x1007 ∧ Holds exMem 0x1007 2 (exBytes 0x1007) ∧
      0x1007 = vaddr12 (exState true 7) 5 7 ∧ 0x1007 = vaddrX (exState true 7) 5 9 := by decide

theorem witness_WordLoadsComplete :
    Reaches (exState false) 0x1008 .word .load 0x1008 ∧ Holds exMem 0x1008 4 (exBytes 0x1008) ∧
      0x1008 = vaddr12 (exState false) 6 0xFF8 ∧ 0x1008 = vaddrX (exState false) 5 7 ∧
      0x1008 = vaddr14 (exState false) 6 0x3FFE := by decide

theorem witness_DoublewordLoadsComplete :
    Reaches displaced 0x1008 .doubleword .load 0x9008 ∧
      Holds displaced.mem 0x9008 8 (exBytes 0x1008) ∧
      0x1008 = vaddr12 displaced 5 8 ∧ 0x1008 = vaddrX displaced 5 7 ∧ 0x1008 = vaddr14 displaced 5 2 := by
  decide

theorem witness_ByteStoresComplete :
    exMem.wf = true ∧ Reaches (exState false 15) 0x100F .byte .store 0x100F ∧
      Holds exMem 0x100F 1 (exBytes 0x100F) ∧ hitsText (exState false).params 0x100F 1 = false ∧
      0x100F = vaddr12 (exState false 15) 5 15 ∧ 0x100F = vaddrX (exState false 15) 5 9 := by decide

theorem witness_HalfwordStoresComplete :
    exMem.wf = true ∧ Reaches (exState true 7) 0x1007 .halfword .store 0x1007 ∧
      Holds exMem 0x1007 2 (exBytes 0x1007) ∧ hitsText (exState true).params 0x1007 2 = false ∧
      0x1007 = vaddr12 (exState true 7) 5 7 ∧ 0x1007 = vaddrX (exState true 7) 5 9 := by decide

/-- A store right before the program, whose four bytes begin at 0x1008. -/
theorem witness_WordStoresComplete :
    exMem.wf = true ∧ Reaches (textAtData.withFetchWord 32 0) 0x1004 .word .store 0x1004 ∧
      Holds exMem 0x1004 4 (exBytes 0x1004) ∧
      hitsText (textAtData.withFetchWord 32 0).params 0x1004 4 = false ∧
      0x1004 = vaddr12 (textAtData.withFetchWord 32 0) 5 4 ∧
      0x1004 = vaddr14 (textAtData.withFetchWord 32 0) 5 1 ∧
      Reaches (exState false) 0x1008 .word .store 0x1008 ∧ Holds exMem 0x1008 4 (exBytes 0x1008) ∧
      hitsText (exState false).params 0x1008 4 = false ∧ 0x1008 = vaddrX (exState false) 5 7 := by decide

theorem witness_DoublewordStoresComplete :
    exMem.wf = true ∧ Reaches (exState false) 0x1008 .doubleword .store 0x1008 ∧
      Holds exMem 0x1008 8 (exBytes 0x1008) ∧ hitsText (exState false).params 0x1008 8 = false ∧
      0x1008 = vaddr12 (exState false) 5 8 ∧ 0x1008 = vaddrX (exState false) 5 7 ∧
      0x1008 = vaddr14 (exState false) 5 2 := by decide

theorem witness_LoadsFrame :
    memAccess? (.ldD 5 5 8) (exState false) = some ⟨0x1008, .doubleword, .load⟩ ∧
      ∃ t, exec (.ldD 5 5 8) (exState false) = .next t := ⟨by decide, next_of_isSome (by decide)⟩

theorem witness_StoresFrame :
    memAccess? (.stD 5 5 0) (exState false) = some ⟨0x1000, .doubleword, .store⟩ ∧
      (∃ t, exec (.stD 5 5 0) (exState false) = .next t) ∧
      translateAddr (exState false).params.xlat 0x1000 .store = .ok 0x1000 ∧ 0xFFF < 0x1000 :=
  ⟨by decide, next_of_isSome (by decide), by decide, by decide⟩

/-- Two states that differ in `x9` alone, with an instruction that completes, one that faults and one that
is refused. -/
theorem witness_OutcomeDependsOnSourceRegisters :
    (∀ r ∈ sourceRegs (.stxD 12 5 7), (exState false 1).gr r = (exState false).gr r) ∧
      (∃ t, exec (.stxD 12 5 7) (exState false) = .next t) ∧
      (∀ r ∈ sourceRegs (.ldH 4 5 1), (exState false 1).gr r = (exState false).gr r) ∧
      exec (.ldH 4 5 1) (exState false) = .fault (.unaligned 0x1001 .load 0x4000) ∧
      (∀ r ∈ sourceRegs (.ldW 4 5 6), ({ seam with x := exRegs 1 } : State).gr r = seam.gr r) ∧
      exec (.ldW 4 5 6) seam = .refused .nonContiguousAccess := by
  refine ⟨by simp only [sourceRegs]; decide, next_of_isSome (by decide), by simp only [sourceRegs]; decide,
    fault_of_fault? (by decide), by simp only [sourceRegs]; decide, refused_of_refusal? (by decide)⟩

theorem witness_InstructionsArePositionIndependent :
    (∃ t, exec (.stxD 12 5 7) (exState false) = .next t) ∧
      exec (.ldW 4 5 6) seam = .refused .nonContiguousAccess :=
  ⟨next_of_isSome (by decide), refused_of_refusal? (by decide)⟩

theorem witness_LaunchParametersAreConstant : ∃ t, exec (.stB 12 5 15) (exState false) = .next t :=
  next_of_isSome (by decide)

/-- The same operands meet the premises at every width. -/
theorem witness_LoadAfterStoreReturnsTheStoredBits :
    exMem.wf = true ∧
      (∀ n, addrLegal (exState false).params.illegal (vaddr12 (exState false) 5 8) n .load = true) ∧
      (∀ i, translateAddr [] (vaddr12 (exState false) 5 8 + BitVec.ofNat 64 i) .load =
        translateAddr [] (vaddr12 (exState false) 5 8 + BitVec.ofNat 64 i) .store) ∧
      (∃ t, exec (.stB 12 5 8) (exState false) = .next t) ∧
      (∃ t, exec (.stH 12 5 8) (exState false) = .next t) ∧
      (∃ t, exec (.stW 12 5 8) (exState false) = .next t) ∧
      ∃ t, exec (.stD 12 5 8) (exState false) = .next t := by
  refine ⟨by decide, fun n => by cases n <;> decide, fun i => rfl, next_of_isSome (by decide),
    next_of_isSome (by decide), next_of_isSome (by decide), next_of_isSome (by decide)⟩

theorem witness_AddressingModesAgree :
    vaddr14 (exState false) 5 2 = vaddr12 (exState false) 5 8 ∧
      vaddrX (exState false) 5 7 = vaddr12 (exState false) 5 8 := by decide

theorem witness_StepRunsTheDecodedInstruction :
    textWraps oneWord.params = false ∧ oneWord.pc ≠ oneWord.params.endPc ∧ oneWord.pc.toNat % 4 = 0 ∧
      oneWord.params.text.lookup oneWord.pc = some 0x28C000A4 ∧ decode 0x28C000A4 = .ok (.ldD 4 5 0) ∧
      (Instr.ldD 4 5 0).wf = true := by decide

/-- The end, a pc that is not aligned, a pc that is no key, a word in scope and one that is not. -/
theorem witness_FetchCases :
    textWraps oneWord.params = false ∧ (0x4004 : Word) = oneWord.params.endPc ∧
      (0x4002 : Word) ≠ oneWord.params.endPc ∧ (0x4002 : Word).toNat % 4 ≠ 0 ∧
      (0x4008 : Word) ≠ oneWord.params.endPc ∧ (0x4008 : Word).toNat % 4 = 0 ∧
      (∀ c ∈ oneWord.params.text, c.1 ≠ 0x4008) ∧
      oneWord.params.text.lookup 0x4000 = some 0x28C000A4 ∧ decode 0x28C000A4 = .ok (.ldD 4 5 0) ∧
      ((exState false).withFetchWord 32 0x4C000020).params.text.lookup 0x4000 = some 0x4C000020 ∧
      ∀ i, decode 0x4C000020 ≠ .ok i := by
  have h : decode 0x4C000020 = .error (.notInScope 0x4C000020) := by decide
  refine ⟨by decide, by decide, by decide, by decide, by decide, by decide, ?_, by decide, by decide,
    by decide, fun i => by rw [h]; nofun⟩
  intro c hc
  have : c = (0x4000, tableWord 32 0x28C000A4) := List.mem_singleton.mp hc
  rw [this]
  decide

/-- The last pc at which a placed word still runs. -/
theorem witness_PlacedWordRuns :
    ({ exState false with pc := topSlot - 4 } : State).pc.toNat % 4 = 0 ∧ topSlot - 4 ≠ topSlot ∧
      decode 0x28C000A4 = .ok (.ldD 4 5 0) := by decide

theorem witness_PcAdvancesByFour :
    (∃ t, exec (.ldD 4 5 0) oneWord = .next t) ∧
      exec (.ldH 0 5 1) (exState false) = .fault (.unaligned 0x1001 .load 0x4000) ∧
      (∃ t, step oneWord = .next t) ∧ (topSlot, tableWord 32 0x28C000A4) ∈ topText.params.text :=
  ⟨next_of_isSome (by decide), fault_of_fault? (by decide), next_of_isSome (by decide),
    List.mem_singleton.mpr rfl⟩

theorem witness_LaunchAcceptsExactlyWellFormedRecords : launch oneWord = .next oneWord :=
  next_of_completed (by decide)

theorem witness_StepKeepsMemoryCanonical : oneWord.mem.wf = true ∧ ∃ t, step oneWord = .next t :=
  ⟨by decide, next_of_isSome (by decide)⟩

theorem witness_StepKeepsAdmitted : admitted oneWord = true ∧ ∃ t, step oneWord = .next t :=
  ⟨by decide, next_of_isSome (by decide)⟩

theorem witness_AdmittedStepsNeverFaultAtFetch : admitted oneWord = true := by decide

/-- A run of one step, all the slots there are, that ends. -/
theorem witness_RunIsAStraightLine :
    admitted oneWord = true ∧ (oneWord.params.endPc.toNat - oneWord.pc.toNat) / 4 = 1 ∧
      ∃ t, Sys2Proof.core.run 1 oneWord = .next t ∧ EndsIn oneWord 1 t := by
  obtain ⟨t, ht⟩ := next_of_isSome (o := Sys2Proof.core.run 1 oneWord) (by decide)
  have hr : (completed? (Sys2Proof.core.run 1 oneWord)).map (fun t => stepOutcome (step t)) =
      some .ended := by
    decide
  rw [ht] at hr
  exact ⟨by decide, by decide, t, ht, ht, Option.some.inj hr⟩

end Sys2Proof.Tests
end

section
/-! PROOFS. The family of 00_scope.md: the extensions of R8 and the register writes of R10. -/

namespace Sys2Proof.Machine

/-- Zero extension keeps the number (R8). -/
theorem toNat_zext64 {m : Nat} (v : BitVec m) (hm : m ≤ 64) : (zext64 v).toNat = v.toNat :=
  BitVec.toNat_setWidth_of_le hm

/-- Sign extension adds the new high bits, all ones, exactly when the top bit is set (R8). -/
theorem toNat_sext64 {m : Nat} (v : BitVec m) (hm : m ≤ 64) :
    (sext64 v).toNat = v.toNat + if v.msb then 2 ^ 64 - 2 ^ m else 0 := by
  rw [sext64, BitVec.toNat_signExtend, BitVec.toNat_setWidth_of_le hm]

theorem toNat_sext64_of_lt {m : Nat} (v : BitVec m) (hm : m ≤ 64) (h : v.toNat < 2 ^ (m - 1)) :
    (sext64 v).toNat = v.toNat := by
  have hmsb : v.msb = false := by simpa [BitVec.msb_eq_decide] using h
  simp [toNat_sext64 v hm, hmsb]

theorem toNat_sext64_of_ge {m : Nat} (v : BitVec m) (hm : m ≤ 64) (h : 2 ^ (m - 1) ≤ v.toNat) :
    (sext64 v).toNat = v.toNat + 2 ^ 64 - 2 ^ m := by
  have hmsb : v.msb = true := by simpa [BitVec.msb_eq_decide] using h
  have hpow : 2 ^ m ≤ 2 ^ 64 := Nat.pow_le_pow_right Nat.two_pos hm
  rw [toNat_sext64 v hm, if_pos hmsb, Nat.add_sub_assoc hpow]

/-- Settles O9: the top bit decides whether the number is below `2 ^ (m - 1)`. -/
theorem extensionsAsNumbers : Obligations.ExtensionsAsNumbers := by
  intro m v _ hm
  refine ⟨?_, toNat_zext64 v hm⟩
  split
  · next h => exact toNat_sext64_of_lt v hm h
  · next h => exact toNat_sext64_of_ge v hm (Nat.le_of_not_lt h)

/-- Settles O8, by the register laws of the state. -/
theorem registerWriteReadsBack : Obligations.RegisterWriteReadsBack := fun s r v hr =>
  ⟨gr_setGr_self s hr v, fun _ hq => gr_setGr_of_ne s hq v,
    setGr_pc s r v, setGr_mem s r v, setGr_params s r v⟩

end Sys2Proof.Machine
end

section
/-! PROOFS. The family of 10_state.md, the state's operations: what a completed instruction changes and what it
leaves (R22, R24, R29), what its outcome depends on (R22), and the pc that an exception reports (R171). -/

namespace Sys2Proof.Machine

/-! ### One meaning for each kind of access -/

/-- An instruction whose access is a load runs the shared load at that access. -/
theorem exec_of_load_access {i : Instr} {s : State} {a : MemAccess} (ha : memAccess? i s = some a)
    (hk : a.kind = .load) :
    ∃ extend rd, destReg? i = some rd ∧ exec i s = load a.size extend rd a.vaddr s := by
  rcases exec_cases i with ⟨-, h⟩ | ⟨n, extend, rd, v, hd, h, -⟩ | ⟨n, rd, v, -, -, h, -⟩
  · cases (h s).1.symm.trans ha
  · cases (h s).1.symm.trans ha
    exact ⟨extend, rd, hd, (h s).2⟩
  · cases (h s).1.symm.trans ha
    cases hk

/-- An instruction whose access is a store runs the shared store at that access. -/
theorem exec_of_store_access {i : Instr} {s : State} {a : MemAccess} (ha : memAccess? i s = some a)
    (hk : a.kind = .store) : ∃ rd, exec i s = store a.size rd a.vaddr s := by
  rcases exec_cases i with ⟨-, h⟩ | ⟨n, extend, rd, v, -, h, -⟩ | ⟨n, rd, v, -, -, h, -⟩
  · cases (h s).1.symm.trans ha
  · cases (h s).1.symm.trans ha
    cases hk
  · cases (h s).1.symm.trans ha
    exact ⟨rd, (h s).2⟩

/-! ### What a completed instruction leaves -/

/-- States with the same stored registers read alike. -/
theorem gr_congr {s t : State} (h : t.x = s.x) (r : RegNum) : t.gr r = s.gr r := by
  simp only [State.gr, h]

/-- The frame of every instruction: the pc advances, the parameters, the domain and the canonical form of the
memory stay, and no register but the destination changes. -/
theorem exec_frame {i : Instr} {s t : State} (h : exec i s = .next t) :
    t.pc = s.pc + 4 ∧ t.params = s.params ∧ t.mem.domain = s.mem.domain ∧
      (s.mem.wf = true → t.mem.wf = true) ∧ ∀ r, destReg? i ≠ some r → t.gr r = s.gr r := by
  rcases exec_cases i with ⟨-, he⟩ | ⟨n, extend, rd, v, hd, he, -⟩ | ⟨n, rd, v, -, -, he, -⟩
  · cases (he s).2.symm.trans h
    exact ⟨rfl, rfl, rfl, id, fun _ _ => rfl⟩
  · obtain ⟨hpc, hmem, hps, hgr⟩ := load_frame ((he s).2.symm.trans h)
    exact ⟨hpc, hps, by rw [hmem], by rw [hmem]; exact id,
      fun r hr => hgr r fun e => hr (e ▸ hd)⟩
  · obtain ⟨hpc, hx, hps, hdom, hwf⟩ := store_frame ((he s).2.symm.trans h)
    exact ⟨hpc, hps, hdom, hwf, fun r _ => gr_congr hx r⟩

theorem exec_pc {i : Instr} {s t : State} (h : exec i s = .next t) : t.pc = s.pc + 4 := (exec_frame h).1

/-- Which addresses hold a byte is decided by the domain alone (R29). -/
theorem has_congr {m m' : Memory} (h : m'.domain = m.domain) (a : Nat) : m'.has a = m.has a := by
  simp only [Memory.has, h]

/-- Settles O39, by the frame of the shared load. -/
theorem loadsFrame : Obligations.LoadsFrame := by
  intro i s t a ha hk h
  obtain ⟨extend, rd, -, he⟩ := exec_of_load_access ha hk
  obtain ⟨-, hmem, hps, -⟩ := load_frame (he.symm.trans h)
  obtain ⟨-, -, -, -, hgr⟩ := exec_frame h
  exact ⟨hgr, fun q => by rw [hmem], hps⟩

/-- Settles O40: the address that `Access` answers is the translation of the first byte, and `MemWrite` leaves
every byte outside its n. -/
theorem storesFrame : Obligations.StoresFrame := by
  intro i s t a ha hk h
  obtain ⟨rd, he⟩ := exec_of_store_access ha hk
  obtain ⟨p', m, hacc, -, hm, rfl⟩ := store_eq_next (he.symm.trans h)
  refine ⟨fun r => rfl, rfl, fun p hp q hq => ?_⟩
  obtain ⟨-, -, htr⟩ := access_eq_next hacc
  have hp' : translateAddr s.params.xlat a.vaddr .store = .ok p' := by
    simpa using htr 0 a.size.bytes_pos
  cases hp.symm.trans hp'
  obtain ⟨-, -, hread⟩ := memWrite_frame hm
  exact hread q hq

/-- Settles O43, by the frame of every instruction. -/
theorem launchParametersAreConstant : Obligations.LaunchParametersAreConstant := by
  intro i s t h
  obtain ⟨-, hps, hdom, -, -⟩ := exec_frame h
  exact ⟨hps, hdom, fun a => by rw [read?_isSome, read?_isSome, has_congr hdom]⟩

/-- Settles O52: a completed step is a completed instruction, and each keeps the form. -/
theorem stepKeepsMemoryCanonical : Obligations.StepKeepsMemoryCanonical := by
  intro s t hwf h
  obtain ⟨w, i, -, -, he⟩ := step_eq_next h
  obtain ⟨-, -, -, hkeep, -⟩ := exec_frame he
  exact hkeep hwf

/-- Settles O7, by the laws of register 0 and of completed accesses. -/
theorem registerZeroIsHardwired : Obligations.RegisterZeroIsHardwired := by
  intro s
  refine ⟨gr_zero s, setGr_zero s, fun n extend v p b hp hb => load_of_access hp hb,
    fun n extend v f hf => by rw [load, hf, andThen_fault], fun n v p m hp ht hm => ?_,
    fun d => BitVec.zero_add _, fun r => ⟨BitVec.zero_add _, BitVec.add_zero _⟩, fun d => BitVec.zero_add _⟩
  refine store_of_access hp ht ?_
  have hz : (s.gr 0#5).setWidth (8 * n.bytes) = 0 := by simp
  rw [← hm, ← hz]
  rfl

/-! ### What an outcome depends on -/

/-- `Access` depends on no register and no byte: only on the parameters and, where it raises, on the pc. -/
theorem access_congr {s s' : State} (hpc : s'.pc = s.pc) (hps : s'.params = s.params) (v : Word)
    (n : AccessSize) (k : AccessKind) : access s' v n k = access s v n k := by
  simp only [access, raise, hpc, hps]

/-- The state `s` after an instruction with destination `d` that led from another state to `t`: the pc, the
memory and the destination's value are those of `t`. -/
def State.withEffect (s : State) (d : Option RegNum) (t : State) : State :=
  match d with
  | none => { s with pc := t.pc, mem := t.mem }
  | some rd => { s with pc := t.pc, mem := t.mem }.setGr rd (t.gr rd)

@[simp] theorem withEffect_pc (s : State) (d : Option RegNum) (t : State) : (s.withEffect d t).pc = t.pc := by
  cases d with
  | none => rfl
  | some rd => exact setGr_pc _ _ _

@[simp] theorem withEffect_mem (s : State) (d : Option RegNum) (t : State) :
    (s.withEffect d t).mem = t.mem := by
  cases d with
  | none => rfl
  | some rd => exact setGr_mem _ _ _

/-- The destination holds what it holds in the other state. -/
theorem gr_withEffect_dest (s : State) (rd : RegNum) (t : State) :
    (s.withEffect (some rd) t).gr rd = t.gr rd := by
  by_cases h : rd = 0
  · subst h; rfl
  · exact gr_setGr_self _ h _

/-- Every other register is left alone. -/
theorem gr_withEffect_of_ne (s : State) {d : Option RegNum} (t : State) {r : RegNum} (h : d ≠ some r) :
    (s.withEffect d t).gr r = s.gr r := by
  cases d with
  | none => rfl
  | some rd => exact gr_setGr_of_ne _ (fun e => h (congrArg some e.symm)) _

/-- The effect of a completed load is the same write to the same register. -/
theorem withEffect_setGr_advance {s s' : State} (hpc : s'.pc = s.pc) (hm : s'.mem = s.mem) (rd : RegNum)
    (w : Word) : s'.withEffect (some rd) (s.setGr rd w).advance = (s'.setGr rd w).advance := by
  by_cases h : rd = 0
  · subst h
    simp [State.withEffect, State.advance, hpc, ← hm]
  · simp [State.withEffect, State.advance, setGr_of_ne_zero _ h, gr_of_ne_zero _ h, hpc, ← hm]

theorem load_congr {s s' : State} (hpc : s'.pc = s.pc) (hm : s'.mem = s.mem) (hps : s'.params = s.params)
    (n : AccessSize) (extend : BitVec (8 * n.bytes) → Word) (rd : RegNum) (v : Word) :
    load n extend rd v s' =
      andThen (load n extend rd v s) fun t => .next (s'.withEffect (some rd) t) := by
  have hacc := access_congr hpc hps v n .load
  rcases load_cases n extend rd v s with
    ⟨f, ha, hl⟩ | ⟨r, ha, hl⟩ | ⟨p, ha, ⟨hb, hl⟩ | ⟨b, hb, hl⟩⟩ <;> rw [hl]
  · simp [load, hacc, ha]
  · simp [load, hacc, ha]
  · simp [load, hacc, ha, hm, hb, hpc]
  · simp [load, hacc, ha, hm, hb, withEffect_setGr_advance hpc hm]

theorem store_congr {s s' : State} (hpc : s'.pc = s.pc) (hm : s'.mem = s.mem) (hps : s'.params = s.params)
    (n : AccessSize) {rd : RegNum} (hrd : s'.gr rd = s.gr rd) (v : Word) :
    store n rd v s' = andThen (store n rd v s) fun t => .next (s'.withEffect none t) := by
  have hacc := access_congr hpc hps v n .store
  rcases store_cases n rd v s with
    ⟨f, ha, hl⟩ | ⟨r, ha, hl⟩ | ⟨p, ha, ⟨ht, hl⟩ | ⟨ht, ⟨hw, hl⟩ | ⟨m, hw, hl⟩⟩⟩ <;> rw [hl]
  · simp [store, hacc, ha]
  · simp [store, hacc, ha]
  · simp [store, hacc, ha, hps, ht]
  · simp [store, hacc, ha, hps, ht, hm, hrd, hw, hpc]
  · simp [store, hacc, ha, hps, ht, hm, hrd, hw, State.withEffect, State.advance, hpc]

/-- What an instruction does in one state is what it does in another that agrees on the pc, the memory, the
parameters and the source registers, with its effect carried over (R22). -/
theorem exec_congr {i : Instr} {s s' : State} (hpc : s'.pc = s.pc) (hm : s'.mem = s.mem)
    (hps : s'.params = s.params) (hgr : ∀ r ∈ sourceRegs i, s'.gr r = s.gr r) :
    exec i s' = andThen (exec i s) fun t => .next (s'.withEffect (destReg? i) t) := by
  rcases exec_cases i with ⟨hd, he⟩ | ⟨n, extend, rd, v, hd, he, hv⟩ | ⟨n, rd, v, hd, hrd, he, hv⟩
  · rw [(he s').2, (he s).2, hd]
    simp [State.withEffect, State.advance, hpc, ← hm]
  · rw [(he s').2, (he s).2, hd, hv s s' hgr]
    exact load_congr hpc hm hps n extend rd (v s)
  · rw [(he s').2, (he s).2, hd, hv s s' hgr]
    exact store_congr hpc hm hps n (hgr rd hrd) (v s)

/-- Settles O41: the outcome in the one state is the outcome in the other with its effect carried over. -/
theorem outcomeDependsOnSourceRegisters : Obligations.OutcomeDependsOnSourceRegisters := by
  intro i s s' hpc hm hps hgr
  have hc := exec_congr hpc hm hps hgr
  refine ⟨fun t h => ?_, fun f h => by rw [hc, h, andThen_fault], fun r h => by rw [hc, h, andThen_refused]⟩
  obtain ⟨-, -, -, -, hframe⟩ := exec_frame h
  exact ⟨s'.withEffect (destReg? i) t, by rw [hc, h, andThen_next], withEffect_mem _ _ _, withEffect_pc _ _ _,
    fun d hd => by rw [hd]; exact gr_withEffect_dest s' d t,
    fun r hr => ⟨hframe r hr, gr_withEffect_of_ne s' t hr⟩⟩

/-! ### The pc that a stop reports -/

/-- The pc that a fault records (R171). -/
def Fault.pc : Fault → Word
  | .addressError _ _ pc | .unaligned _ _ pc | .translationFault _ _ _ pc => pc
  | .fetchMisaligned pc | .fetchOutsideText pc | .stuck pc => pc

/-- An access that raises reports the pc of its state. -/
theorem access_fault_pc {s : State} {v : Word} {n : AccessSize} {k : AccessKind} {f : Fault}
    (h : access s v n k = .fault f) : f.pc = s.pc := by
  rcases access_cases s v n k with
    ⟨-, ha⟩ | ⟨-, ⟨-, -, ha⟩ | ⟨-, ⟨c, j, -, -, -, ha⟩ | ⟨-, p, -, ⟨-, ha⟩ | ⟨-, ha⟩⟩⟩⟩ <;>
    cases ha.symm.trans h <;> rfl

theorem load_fault_pc {n : AccessSize} {extend : BitVec (8 * n.bytes) → Word} {rd : RegNum} {v : Word}
    {s : State} {f : Fault} (h : load n extend rd v s = .fault f) : f.pc = s.pc := by
  rcases load_cases n extend rd v s with
    ⟨g, ha, hl⟩ | ⟨r, -, hl⟩ | ⟨p, -, ⟨-, hl⟩ | ⟨b, -, hl⟩⟩ <;> cases hl.symm.trans h
  · exact access_fault_pc ha
  · rfl

theorem store_fault_pc {n : AccessSize} {rd : RegNum} {v : Word} {s : State} {f : Fault}
    (h : store n rd v s = .fault f) : f.pc = s.pc := by
  rcases store_cases n rd v s with
    ⟨g, ha, hl⟩ | ⟨r, -, hl⟩ | ⟨p, -, ⟨-, hl⟩ | ⟨-, ⟨-, hl⟩ | ⟨m, -, hl⟩⟩⟩ <;> cases hl.symm.trans h
  · exact access_fault_pc ha
  · rfl

/-- An instruction that faults reports its own pc. -/
theorem exec_fault_pc {i : Instr} {s : State} {f : Fault} (h : exec i s = .fault f) : f.pc = s.pc := by
  rcases exec_cases i with ⟨-, he⟩ | ⟨n, extend, rd, v, -, he, -⟩ | ⟨n, rd, v, -, -, he, -⟩
  · cases (he s).2.symm.trans h
  · exact load_fault_pc ((he s).2.symm.trans h)
  · exact store_fault_pc ((he s).2.symm.trans h)

end Sys2Proof.Machine
end

section
/-! PROOFS. The family of 10_state.md, steps and launches: what the fetch and the launch answer, the pc of a completed
step (R24), the admitted states (R192), and the state after reset (R33). -/

namespace Sys2Proof.Machine

/-! ### The fetch of a word of the text -/

/-- When the fetch answers: the text does not wrap, and the pc is an aligned key of it before the end. -/
theorem fetch_of_lookup {s : State} {w : InstrWord} (hw : textWraps s.params = false)
    (hend : s.pc ≠ s.params.endPc) (hal : s.pc.toNat % 4 = 0) (hl : s.params.text.lookup s.pc = some w) :
    fetch s = .next w := by
  simp [fetch, hw, hend, hal, hl]

theorem step_of_fetch {s : State} {w : InstrWord} {i : Instr} (hf : fetch s = .next w)
    (hd : decode w = .ok i) : step s = exec i s := by
  simp only [step, hf, andThen_next, hd]

/-- Settles O46, by the condition of the fetch. -/
theorem stepRunsTheDecodedInstruction : Obligations.StepRunsTheDecodedInstruction :=
  fun _ _ _ hw hend hal hl hd _ => step_of_fetch (fetch_of_lookup hw hend hal hl) hd

theorem tableWord_toNat (w : InstrWord) : tableWord 32 w.toNat = w := by
  rw [tableWord, Nat.mod_eq_of_lt w.isLt, BitVec.ofNat_toNat, BitVec.setWidth_eq]

theorem textWraps_eq_false {ps : Params} : textWraps ps = false ↔ ∀ c ∈ ps.text, c.1 ≠ topSlot := by
  simp [textWraps]

theorem word_ne_add_four (a : Word) : a ≠ a + 4 := by bv_omega

/-- The fetch finds the placed word, unless it stands in the top slot. -/
theorem fetch_withFetchWord {s : State} (w : InstrWord) (hal : s.pc.toNat % 4 = 0) (htop : s.pc ≠ topSlot) :
    fetch (s.withFetchWord 32 w.toNat) = .next w := by
  have htext : (s.withFetchWord 32 w.toNat).params.text = [(s.pc, w)] := by
    simp [State.withFetchWord, tableWord_toNat]
  refine fetch_of_lookup (textWraps_eq_false.mpr fun c hc => ?_) (word_ne_add_four s.pc) hal ?_
  · rw [htext, List.mem_singleton] at hc
    rw [hc]
    exact htop
  · simp [htext]

/-- Settles O48: the placed word is fetched, and its bytes decode as it does. -/
theorem placedWordRuns : Obligations.PlacedWordRuns := by
  intro s w i hal htop hd
  refine ⟨step_of_fetch (fetch_withFetchWord w hal htop) hd, ?_⟩
  simp [decodeTableWord, tableWord_toNat, bytesOfWord, decodeBytes, wordOfBytes_bytesOfWord, hd, Except.map]

/-! ### The launch -/

/-- The launch starts from an admitted record as it is, and refuses every other. -/
theorem launch_cases (s : State) :
    admitted s = true ∧ launch s = .next s ∨ admitted s = false ∧ ∃ r, launch s = .refused r := by
  unfold launch admitted
  cases textAligned s with
  | false => exact .inr ⟨rfl, _, rfl⟩
  | true =>
  cases noWrapAtTop s.params with
  | false => exact .inr ⟨rfl, _, rfl⟩
  | true =>
  cases textContiguous s with
  | false => exact .inr ⟨rfl, _, rfl⟩
  | true =>
  cases translateBlockwise s.params.xlat with
  | false => exact .inr ⟨rfl, _, rfl⟩
  | true =>
  cases s.mem.wf with
  | false => exact .inr ⟨rfl, _, rfl⟩
  | true => exact .inl ⟨rfl, rfl⟩

theorem launch_of_admitted {s : State} (h : admitted s = true) : launch s = .next s := by
  rcases launch_cases s with ⟨-, hl⟩ | ⟨hn, -⟩
  · exact hl
  · cases hn.symm.trans h

/-- The text of an admitted state does not contain the top slot. -/
theorem key_ne_topSlot_of_admitted {s : State} (h : admitted s = true) {c : Word × InstrWord}
    (hc : c ∈ s.params.text) : c.1 ≠ topSlot := by
  obtain ⟨base, hlt, -, hkeys, -⟩ := admitted_numbers h
  obtain ⟨i, hi, hci⟩ := key_is_slot hkeys hlt hc
  intro e
  have := toNat_topSlot
  rw [← e] at this
  omega

/-! ### The pc of a completed step -/

/-- A word is fetched only below the top slot: every pc fetched is an aligned key of a text without it. -/
theorem pc_below_top_of_fetch {s : State} {w : InstrWord} (h : fetch s = .next w) :
    s.pc.toNat + 4 < 2 ^ 64 := by
  obtain ⟨hw, -, hal, hl⟩ := fetch_eq_next h
  have hne : s.pc ≠ topSlot := textWraps_eq_false.mp hw _ (mem_of_lookup hl)
  have htop : s.pc.toNat ≠ 2 ^ 64 - 4 := fun e => hne (BitVec.eq_of_toNat_eq (e.trans toNat_topSlot.symm))
  have := s.pc.isLt
  omega

/-- Settles O49: the pc of every completion and every fault, the wrap test of the fetch, and the slots of an
admitted text. -/
theorem pcAdvancesByFour : Obligations.PcAdvancesByFour := by
  refine ⟨fun i s t h => exec_pc h, fun i s c v k pc h => ?_, fun s t h => ?_, fun s c hc htop => ?_⟩
  · rcases h with h | h | h <;> exact exec_fault_pc h
  · obtain ⟨w, i, hf, -, he⟩ := step_eq_next h
    rw [exec_pc he]
    exact toNat_add_four (pc_below_top_of_fetch hf)
  · rcases launch_cases s with ⟨ha, -⟩ | ⟨-, hr⟩
    · exact absurd htop (key_ne_topSlot_of_admitted ha hc)
    · exact hr

/-! ### Admitted states -/

theorem slot_succ (base : Word) (i : Nat) : slot base (i + 1) = slot base i + 4 := by
  simp only [slot, Nat.mul_add, BitVec.ofNat_add, BitVec.add_assoc]
  rfl

/-- Alignment outlives the advance, modulo 2^64 too. -/
theorem add_four_aligned {a : Word} (h : a.toNat % 4 = 0) : (a + 4).toNat % 4 = 0 := by
  rw [BitVec.toNat_add, show (4 : Word).toNat = 4 from rfl]
  omega

theorem textAligned_of_advance {s t : State} (hpc : t.pc = s.pc + 4) (hps : t.params = s.params)
    (h : textAligned s = true) : textAligned t = true := by
  simp only [textAligned, Bool.and_eq_true, beq_iff_eq] at h ⊢
  obtain ⟨⟨hkeys, hal⟩, hend⟩ := h
  rw [hps, hpc]
  exact ⟨⟨hkeys, add_four_aligned hal⟩, hend⟩

/-- From a slot before the end, the pc advances to a slot or to the end. -/
theorem textContiguous_of_advance {s t : State} (hpc : t.pc = s.pc + 4) (hps : t.params = s.params)
    (hend : s.pc ≠ s.params.endPc) (h : textContiguous s = true) : textContiguous t = true := by
  simp only [textContiguous, Bool.and_eq_true, beq_iff_eq, List.any_eq_true, List.mem_range] at h ⊢
  obtain ⟨⟨hkeys, he⟩, i, hi, hslot⟩ := h
  have hik : i ≠ s.params.text.length := by
    rintro rfl
    exact hend (hslot.trans he.symm)
  rw [hps, hpc]
  exact ⟨⟨hkeys, he⟩, i + 1, by omega, by rw [slot_succ, hslot]⟩

/-- Settles O53: the pc moves one slot on, and the rest of an admitted state is kept by every instruction. -/
theorem stepKeepsAdmitted : Obligations.StepKeepsAdmitted := by
  intro s t h hstep
  obtain ⟨w, i, hf, -, he⟩ := step_eq_next hstep
  obtain ⟨-, hend, -, -⟩ := fetch_eq_next hf
  obtain ⟨hpc, hps, -, hwf, -⟩ := exec_frame he
  simp only [admitted, Bool.and_eq_true] at h ⊢
  obtain ⟨⟨⟨⟨hal, hnw⟩, hcont⟩, hx⟩, hm⟩ := h
  exact ⟨⟨⟨⟨textAligned_of_advance hpc hps hal, by rwa [hps]⟩, textContiguous_of_advance hpc hps hend hcont⟩,
    by rwa [hps]⟩, hwf hm⟩

/-! ### Reset -/

/-- Settles O56: the reset state passes each check of the launch. -/
theorem resetIsAdmitted : Obligations.ResetIsAdmitted := by
  have h : admitted State.reset = true := by
    simp only [admitted, Bool.and_eq_true]
    exact ⟨⟨⟨⟨by decide, by decide⟩, by decide⟩, rfl⟩, reset_mem_wf⟩
  exact ⟨h, launch_of_admitted h⟩

theorem reset_gr (r : RegNum) : State.reset.gr r = 0 := by
  by_cases h : r = 0
  · subst h
    rfl
  · rw [gr_of_ne_zero _ h]
    exact Vector.getElem_replicate _

theorem reset_has (a : Nat) : State.reset.mem.has a = decide (a < 2 ^ 64) := by
  simp [State.reset, Memory.reset, Memory.has, Region.has, Config.physTop]

theorem reset_read? (a : Nat) : State.reset.mem.read? a = if a < 2 ^ 64 then some 0 else none := by
  simp only [Memory.read?, reset_has, decide_eq_true_eq]
  rfl

/-- Without spans, `AddrLegal` rejects the accesses that wrap and no other (R44's default). -/
theorem addrLegal_nil (v : Word) (n : AccessSize) (k : AccessKind) :
    addrLegal [] v n k = true ↔ v.toNat + n.bytes ≤ 2 ^ 64 := by
  simp [addrLegal]

/-- Without entries, `Translate` is the identity (R45's default). -/
theorem translateAddr_nil (v : Word) (k : AccessKind) : translateAddr [] v k = .ok v.toNat := rfl

/-- Settles O57, part by part. -/
theorem resetLeaves : Obligations.ResetLeaves :=
  ⟨reset_gr, rfl, fun a ha => by rw [reset_read?, if_pos ha],
    fun a ha => by rw [reset_read?, if_neg (Nat.not_lt.mpr ha)], rfl, addrLegal_nil, translateAddr_nil⟩

end Sys2Proof.Machine
end

section
/-! PROOFS. The family of 10_state.md, the form of `PhysMem` (R29, log 26): canonical memories that read alike are
equal, and every partial map below 2^64 is a canonical memory. -/

namespace Sys2Proof.Machine

/-! ### Canonical lists of cells -/

theorem cellsFrom_cons {f : Nat} {c : Host.Cell} {l : List Host.Cell} :
    cellsFrom f (c :: l) = true ↔ f ≤ c.1 ∧ c.2 ≠ Config.unlistedByte ∧ cellsFrom (c.1 + 1) l = true := by
  simp [cellsFrom, and_assoc]

theorem cellAt_head (c : Host.Cell) (l : List Host.Cell) : cellAt (c :: l) c.1 = c.2 := by
  simp [cellAt]

theorem cellAt_cons_of_ne {c : Host.Cell} {a : Nat} (h : c.1 ≠ a) (l : List Host.Cell) :
    cellAt (c :: l) a = cellAt l a := by
  simp [cellAt, h]

/-- A canonical list that reads like another starts no lower than the other's bound: its first byte differs
from an unlisted one. -/
theorem cells_bound_le_head {f f' : Nat} {c : Host.Cell} {l l' : List Host.Cell}
    (hl : cellsFrom f (c :: l) = true) (hl' : cellsFrom f' l' = true)
    (h : ∀ a, cellAt (c :: l) a = cellAt l' a) : f' ≤ c.1 := by
  by_contra hlt
  obtain ⟨-, hne, -⟩ := cellsFrom_cons.mp hl
  exact hne (by rw [← cellAt_head c l, h, cellAt_of_lt hl' (Nat.lt_of_not_le hlt)])

/-- Canonical lists of cells that read alike are equal. -/
theorem cells_ext {f f' : Nat} {l l' : List Host.Cell} (hl : cellsFrom f l = true)
    (hl' : cellsFrom f' l' = true) (h : ∀ a, cellAt l a = cellAt l' a) : l = l' := by
  induction l generalizing f f' l' with
  | nil =>
    cases l' with
    | nil => rfl
    | cons c' r' =>
      have := cells_bound_le_head (l' := []) (f' := c'.1 + 1) hl' rfl fun a => (h a).symm
      omega
  | cons c r ih =>
    cases l' with
    | nil =>
      have := cells_bound_le_head (l' := []) (f' := c.1 + 1) hl rfl h
      omega
    | cons c' r' =>
      obtain ⟨-, hne, hr⟩ := cellsFrom_cons.mp hl
      obtain ⟨-, hne', hr'⟩ := cellsFrom_cons.mp hl'
      have hle : c'.1 ≤ c.1 := cells_bound_le_head hl (cellsFrom_cons.mpr ⟨le_rfl, hne', hr'⟩) h
      have hge : c.1 ≤ c'.1 :=
        cells_bound_le_head hl' (cellsFrom_cons.mpr ⟨le_rfl, hne, hr⟩) fun a => (h a).symm
      have haddr : c.1 = c'.1 := le_antisymm hge hle
      have hbyte : c.2 = c'.2 := by rw [← cellAt_head c r, h, haddr, cellAt_head]
      have hrest : r = r' := ih hr hr' fun a => by
        by_cases ha : a = c.1
        · rw [cellAt_of_lt hr (by omega), cellAt_of_lt hr' (by omega)]
        · rw [← cellAt_cons_of_ne (Ne.symm ha) r, h, cellAt_cons_of_ne (by omega)]
      rw [hrest, Prod.ext haddr hbyte]

/-! ### Canonical lists of regions -/

/-- Whether some region of a list holds an address. -/
def domainHas (l : List Region) (a : Nat) : Bool := l.any fun g => g.has a

theorem has_eq_domainHas (m : Memory) (a : Nat) : m.has a = domainHas m.domain a := rfl

@[simp] theorem domainHas_nil (a : Nat) : domainHas [] a = false := rfl

@[simp] theorem domainHas_cons (g : Region) (l : List Region) (a : Nat) :
    domainHas (g :: l) a = (g.has a || domainHas l a) := rfl

theorem region_has_iff {g : Region} {a : Nat} : g.has a = true ↔ g.base ≤ a ∧ a < g.base + g.size := by
  simp [Region.has]

theorem region_has_eq_false {g : Region} {a : Nat} (h : ¬ (g.base ≤ a ∧ a < g.base + g.size)) :
    g.has a = false :=
  Bool.eq_false_iff.mpr fun e => h (region_has_iff.mp e)

theorem region_ext {g g' : Region} (hbase : g.base = g'.base) (hsize : g.size = g'.size) : g = g' := by
  cases g
  cases g'
  cases hbase
  cases hsize
  rfl

theorem regionsFrom_cons {f : Nat} {g : Region} {l : List Region} :
    regionsFrom f (g :: l) = true ↔ f ≤ g.base ∧ 0 < g.size ∧ g.base + g.size ≤ Config.physTop ∧
      regionsFrom (g.base + g.size + 1) l = true := by
  simp [regionsFrom, and_assoc]

theorem regionsFrom_mono {f f' : Nat} {l : List Region} (h : regionsFrom f' l = true) (hf : f ≤ f') :
    regionsFrom f l = true := by
  cases l with
  | nil => rfl
  | cons g r =>
    obtain ⟨hb, hrest⟩ := regionsFrom_cons.mp h
    exact regionsFrom_cons.mpr ⟨hf.trans hb, hrest⟩

theorem domainHas_of_lt {f a : Nat} {l : List Region} (hl : regionsFrom f l = true) (h : a < f) :
    domainHas l a = false := by
  induction l generalizing f with
  | nil => rfl
  | cons g r ih =>
    obtain ⟨hb, -, -, hr⟩ := regionsFrom_cons.mp hl
    rw [domainHas_cons, region_has_eq_false (by omega), ih hr (by omega), Bool.or_self]

/-- Up to the gap after it, the first region alone decides. -/
theorem domainHas_cons_of_le_end {f a : Nat} {g : Region} {l : List Region}
    (hl : regionsFrom f (g :: l) = true) (h : a ≤ g.base + g.size) : domainHas (g :: l) a = g.has a := by
  obtain ⟨-, -, -, hr⟩ := regionsFrom_cons.mp hl
  rw [domainHas_cons, domainHas_of_lt hr (by omega), Bool.or_false]

/-- Canonical lists of regions that hold the same addresses: the one starts no lower than the other's bound. -/
theorem regions_bound_le_base {f f' : Nat} {g : Region} {l l' : List Region}
    (hl : regionsFrom f (g :: l) = true) (hl' : regionsFrom f' l' = true)
    (h : ∀ a, domainHas (g :: l) a = domainHas l' a) : f' ≤ g.base := by
  by_contra hlt
  obtain ⟨-, hsize, -⟩ := regionsFrom_cons.mp hl
  have hbase : domainHas (g :: l) g.base = true := by
    rw [domainHas_cons, region_has_iff.mpr (by omega), Bool.true_or]
  rw [h, domainHas_of_lt hl' (Nat.lt_of_not_le hlt)] at hbase
  cases hbase

/-- Of two such lists that start together, neither first region outlasts the other, because a gap follows each. -/
theorem regions_end_le {f : Nat} {g g' : Region} {l l' : List Region}
    (hl : regionsFrom f (g :: l) = true) (hb : g'.base ≤ g.base)
    (h : ∀ a, domainHas (g :: l) a = domainHas (g' :: l') a) :
    g'.base + g'.size ≤ g.base + g.size := by
  by_contra hlt
  have hgap := h (g.base + g.size)
  rw [domainHas_cons_of_le_end hl le_rfl, region_has_eq_false (by omega), domainHas_cons,
    region_has_iff.mpr (by omega), Bool.true_or] at hgap
  cases hgap

/-- Canonical lists of regions that hold the same addresses are equal. -/
theorem regions_ext {f f' : Nat} {l l' : List Region} (hl : regionsFrom f l = true)
    (hl' : regionsFrom f' l' = true) (h : ∀ a, domainHas l a = domainHas l' a) : l = l' := by
  induction l generalizing f f' l' with
  | nil =>
    cases l' with
    | nil => rfl
    | cons g' r' =>
      have := regions_bound_le_base (l' := []) (f' := g'.base + 1) hl' rfl fun a => (h a).symm
      omega
  | cons g r ih =>
    cases l' with
    | nil =>
      have := regions_bound_le_base (l' := []) (f' := g.base + 1) hl rfl h
      omega
    | cons g' r' =>
      obtain ⟨-, hpos⟩ := regionsFrom_cons.mp hl
      obtain ⟨-, hpos'⟩ := regionsFrom_cons.mp hl'
      have hle : g'.base ≤ g.base := regions_bound_le_base hl (regionsFrom_cons.mpr ⟨le_rfl, hpos'⟩) h
      have hge : g.base ≤ g'.base :=
        regions_bound_le_base hl' (regionsFrom_cons.mpr ⟨le_rfl, hpos⟩) fun a => (h a).symm
      have hend : g'.base + g'.size ≤ g.base + g.size := regions_end_le hl hle h
      have hend' : g.base + g.size ≤ g'.base + g'.size := regions_end_le hl' hge fun a => (h a).symm
      obtain ⟨-, -, hr⟩ := hpos
      obtain ⟨-, -, hr'⟩ := hpos'
      have hrest : r = r' := ih hr hr' fun a => by
        by_cases ha : a ≤ g.base + g.size
        · rw [domainHas_of_lt hr (by omega), domainHas_of_lt hr' (by omega)]
        · have := h a
          rwa [domainHas_cons, domainHas_cons, region_has_eq_false (by omega),
            region_has_eq_false (by omega), Bool.false_or, Bool.false_or] at this
      have hbase : g.base = g'.base := le_antisymm hge hle
      rw [hrest, region_ext hbase (by omega)]

/-! ### Canonical memories -/

theorem wf_iff {m : Memory} : m.wf = true ↔ regionsFrom 0 m.domain = true ∧ cellsFrom 0 m.cells = true ∧
    ∀ c ∈ m.cells, m.has c.1 = true := by
  simp [Memory.wf, and_assoc]

theorem memory_ext {m m' : Memory} (hdom : m.domain = m'.domain) (hcells : m.cells = m'.cells) :
    m = m' := by
  cases m
  cases m'
  cases hdom
  cases hcells
  rfl

theorem read?_of_has {m : Memory} {a : Nat} (h : m.has a = true) : m.read? a = some (cellAt m.cells a) := by
  simp [Memory.read?, h]

theorem read?_of_not_has {m : Memory} {a : Nat} (h : m.has a = false) : m.read? a = none := by
  simp [Memory.read?, h]

theorem cellAt_of_not_mem {l : List Host.Cell} {a : Nat} (h : ∀ c ∈ l, c.1 ≠ a) :
    cellAt l a = Config.unlistedByte := by
  induction l with
  | nil => rfl
  | cons c r ih =>
    rw [cellAt_cons_of_ne (h c List.mem_cons_self)]
    exact ih fun d hd => h d (List.mem_cons_of_mem c hd)

/-- A canonical memory lists no byte outside its domain. -/
theorem cellAt_of_not_has {m : Memory} (hw : m.wf = true) {a : Nat} (h : m.has a = false) :
    cellAt m.cells a = Config.unlistedByte := by
  obtain ⟨-, -, hcells⟩ := wf_iff.mp hw
  refine cellAt_of_not_mem fun c hc e => ?_
  rw [← e, hcells c hc] at h
  cases h

/-- Settles O15: reading alike fixes the domain, and with it the listed bytes. -/
theorem canonicalMemoriesReadingAlikeAreEqual : Obligations.CanonicalMemoriesReadingAlikeAreEqual := by
  intro m m' hw hw' h
  have hhas : ∀ a, m.has a = m'.has a := fun a => by rw [← read?_isSome, h, read?_isSome]
  have hcell : ∀ a, cellAt m.cells a = cellAt m'.cells a := fun a => by
    cases ha : m.has a with
    | true =>
      have hr := h a
      rw [read?_of_has ha, read?_of_has ((hhas a).symm.trans ha)] at hr
      exact Option.some.inj hr
    | false => rw [cellAt_of_not_has hw ha, cellAt_of_not_has hw' ((hhas a).symm.trans ha)]
  obtain ⟨hdom, hcells, -⟩ := wf_iff.mp hw
  obtain ⟨hdom', hcells', -⟩ := wf_iff.mp hw'
  exact memory_ext (regions_ext hdom hdom' hhas) (cells_ext hcells hcells' hcell)

/-! ### Every partial map is a canonical memory -/

/-- The regions with the address just below them added, merged with the first where they touch. -/
def addBelow (a : Nat) : List Region → List Region
  | [] => [⟨a, 1⟩]
  | g :: l => if g.base = a + 1 then ⟨a, g.size + 1⟩ :: l else ⟨a, 1⟩ :: g :: l

theorem regionsFrom_addBelow {a : Nat} {l : List Region} (ha : a < Config.physTop)
    (hl : regionsFrom (a + 1) l = true) : regionsFrom a (addBelow a l) = true := by
  cases l with
  | nil => exact regionsFrom_cons.mpr ⟨le_rfl, Nat.one_pos, ha, rfl⟩
  | cons g r =>
    obtain ⟨hb, hsize, htop, hr⟩ := regionsFrom_cons.mp hl
    by_cases h : g.base = a + 1
    · rw [addBelow, if_pos h]
      rw [show g.base + g.size + 1 = a + (g.size + 1) + 1 by omega] at hr
      exact regionsFrom_cons.mpr ⟨le_rfl, Nat.succ_pos _, show a + (g.size + 1) ≤ _ by omega, hr⟩
    · rw [addBelow, if_neg h]
      have hgap : a + 1 + 1 ≤ g.base := by omega
      exact regionsFrom_cons.mpr
        ⟨le_rfl, Nat.one_pos, ha, regionsFrom_cons.mpr ⟨hgap, hsize, htop, hr⟩⟩

theorem domainHas_addBelow (a : Nat) (l : List Region) (q : Nat) :
    domainHas (addBelow a l) q = (decide (q = a) || domainHas l q) := by
  have hone : Region.has ⟨a, 1⟩ q = decide (q = a) := by
    rw [Bool.eq_iff_iff, region_has_iff, decide_eq_true_eq]
    simp only
    omega
  cases l with
  | nil => rw [addBelow, domainHas_cons, hone]
  | cons g r =>
    by_cases h : g.base = a + 1
    · have hmerge : Region.has ⟨a, g.size + 1⟩ q = (decide (q = a) || g.has q) := by
        rw [Bool.eq_iff_iff, Bool.or_eq_true, region_has_iff, region_has_iff, decide_eq_true_eq]
        simp only
        omega
      rw [addBelow, if_pos h, domainHas_cons, domainHas_cons, hmerge, Bool.or_assoc]
    · rw [addBelow, if_neg h, domainHas_cons, hone]

/-- Every set of addresses in a range of the physical space is held by a canonical list of regions. -/
theorem exists_regions (p : Nat → Bool) (n from_ : Nat) (h : from_ + n ≤ Config.physTop) :
    ∃ l, regionsFrom from_ l = true ∧
      ∀ a, domainHas l a = (decide (from_ ≤ a ∧ a < from_ + n) && p a) := by
  induction n generalizing from_ with
  | zero => exact ⟨[], rfl, fun a => by simp⟩
  | succ n ih =>
    obtain ⟨l, hl, hhas⟩ := ih (from_ + 1) (by omega)
    have hrange (a : Nat) (ha : a ≠ from_) :
        (from_ + 1 ≤ a ∧ a < from_ + 1 + n) ↔ (from_ ≤ a ∧ a < from_ + (n + 1)) := by omega
    cases hp : p from_ with
    | true =>
      refine ⟨addBelow from_ l, regionsFrom_addBelow (by omega) hl, fun a => ?_⟩
      rw [domainHas_addBelow, hhas]
      by_cases ha : a = from_
      · simp [ha, hp]
      · simp only [ha, hrange a ha, decide_false, Bool.false_or]
    | false =>
      refine ⟨l, regionsFrom_mono hl (Nat.le_succ from_), fun a => ?_⟩
      rw [hhas]
      by_cases ha : a = from_
      · simp [ha, hp]
      · simp only [hrange a ha]

/-- Writing its bytes one after another, a canonical memory whose domain is a map's comes to read as the map. -/
theorem exists_written (f : Nat → Option Byte) {m : Memory} (hw : m.wf = true)
    (hdom : ∀ a, m.has a = (f a).isSome) (n : Nat) :
    ∃ m' : Memory, m'.wf = true ∧ m'.domain = m.domain ∧ ∀ a, a < n → m'.read? a = f a := by
  induction n with
  | zero => exact ⟨m, hw, rfl, fun a ha => absurd ha (Nat.not_lt_zero a)⟩
  | succ n ih =>
    obtain ⟨m', hw', hd, hread⟩ := ih
    have hhas : ∀ a, m'.has a = (f a).isSome := fun a => (has_congr hd a).trans (hdom a)
    cases hb : f n with
    | none =>
      refine ⟨m', hw', hd, fun a ha => ?_⟩
      rcases Nat.lt_succ_iff_lt_or_eq.mp ha with hlt | rfl
      · exact hread a hlt
      · rw [hb, read?_of_not_has (by rw [hhas, hb]; rfl)]
    | some b =>
      have hwr : m'.write? n b = some { m' with cells := setCell m'.cells n b } := by
        rw [Memory.write?, if_pos (by rw [hhas, hb]; rfl)]
      refine ⟨_, write?_wf hw' hwr, (write?_domain hwr).trans hd, fun a ha => ?_⟩
      rcases Nat.lt_succ_iff_lt_or_eq.mp ha with hlt | rfl
      · rw [read?_write?_of_ne hwr hlt.ne, hread a hlt]
      · rw [read?_write?_self hw' hwr, hb]

/-- Settles O16: the regions of the map's domain first, then its bytes. -/
theorem everyPhysMemIsRepresented : Obligations.EveryPhysMemIsRepresented := by
  intro f hf
  have hlow : ∀ a, (f a).isSome = true → a < Config.physTop := fun a h => by
    by_contra hn
    rw [hf a (Nat.le_of_not_lt hn)] at h
    cases h
  obtain ⟨l, hl, hhas⟩ := exists_regions (fun a => (f a).isSome) Config.physTop 0 (Nat.zero_add _).le
  have hdom : ∀ a, Memory.has ⟨l, []⟩ a = (f a).isSome := fun a => by
    rw [has_eq_domainHas, hhas, Bool.eq_iff_iff, Bool.and_eq_true, decide_eq_true_eq, Nat.zero_add]
    exact ⟨And.right, fun h => ⟨⟨Nat.zero_le a, hlow a h⟩, h⟩⟩
  have hw : Memory.wf ⟨l, []⟩ = true := wf_iff.mpr ⟨hl, rfl, fun c hc => absurd hc List.not_mem_nil⟩
  obtain ⟨m, hwm, hd, hread⟩ := exists_written f hw hdom Config.physTop
  refine ⟨m, hwm, fun a => ?_⟩
  by_cases ha : a < Config.physTop
  · exact hread a ha
  · have hnone : f a = none := hf a (Nat.le_of_not_lt ha)
    rw [hnone, read?_of_not_has (by rw [has_congr hd, hdom, hnone]; rfl)]

end Sys2Proof.Machine
end

section
/-! PROOFS. The family of 20_memory.md, physical memory and addresses: the sums of R43 and R168, the bytes of
`MemRead` and `MemWrite` (R41, R42, R48, R49). -/

namespace Sys2Proof.Machine

/-! ### Addresses -/

/-- Adding a sign-extended displacement adds its signed value, modulo 2^64 (R8, R43). -/
theorem toNat_add_sext64 (a : Word) {m : Nat} (d : BitVec m) :
    ((a + sext64 d).toNat : Int) = (a.toNat + d.toInt) % 2 ^ 64 := by
  have hsext : sext64 d = BitVec.ofInt 64 d.toInt := rfl
  rw [hsext, BitVec.toNat_add, BitVec.toNat_ofInt]
  omega

/-- Shifting a field left by two multiplies its signed value by four (R43). -/
theorem toInt_append_zero_two {m : Nat} (d : BitVec m) : (d ++ 0#2).toInt = 4 * d.toInt := by
  by_cases hm : m = 0
  · subst hm
    simp [BitVec.eq_nil d]
  · simp [BitVec.toInt_append, hm]

theorem toNat_vaddr14 (s : State) (rj : RegNum) (d : BitVec 14) :
    ((vaddr14 s rj d).toNat : Int) = ((s.gr rj).toNat + 4 * d.toInt) % 2 ^ 64 := by
  rw [vaddr14, toNat_add_sext64, toInt_append_zero_two]

/-- Settles O10, by the sum with a sign-extended displacement. -/
theorem addressesAreSums : Obligations.AddressesAreSums := by
  intro s rj rk
  refine ⟨fun d => toNat_add_sext64 _ d, BitVec.toNat_add _ _, fun d => ⟨toNat_vaddr14 s rj d, ?_⟩,
    toNat_add_sext64 _ _⟩
  have := toNat_vaddr14 s rj d
  omega

/-! ### Bytes of a value, reads and writes -/

/-- A value of n bytes is decided by its bytes. -/
theorem eq_of_bytes {n : Nat} {u v : BitVec (8 * n)}
    (h : ∀ i, i < n → u.extractLsb' (8 * i) 8 = v.extractLsb' (8 * i) 8) : u = v := by
  refine BitVec.eq_of_getLsbD_eq fun j hj => ?_
  have hbit := congrArg (fun b : Byte => b.getLsbD (j % 8)) (h (j / 8) (by omega))
  simpa [BitVec.getLsbD_extractLsb', Nat.mod_lt, Nat.div_add_mod] using hbit

/-- Byte i of a part of a value that starts at byte k is byte k + i of the value. -/
theorem extractLsb'_byte_of_part {w k l i : Nat} (v : BitVec w) (hi : i < l) :
    (v.extractLsb' (8 * k) (8 * l)).extractLsb' (8 * i) 8 = v.extractLsb' (8 * (k + i)) 8 := by
  ext j hj
  have hlt : 8 * i + j < 8 * l := by omega
  simp [BitVec.getElem_extractLsb', hlt, Nat.mul_add, Nat.add_assoc]

theorem has_of_read? {m : Memory} {a : Nat} {b : Byte} (h : m.read? a = some b) : m.has a = true := by
  rw [← read?_isSome, h, Option.isSome_some]

/-- `MemRead` returns the value whose bytes stand there (R48). -/
theorem memRead_of_bytes {m : Memory} {p n : Nat} {v : BitVec (8 * n)}
    (h : ∀ i, i < n → m.read? (p + i) = some (v.extractLsb' (8 * i) 8)) : memRead m p n = some v := by
  obtain ⟨u, hu⟩ := memRead_isSome fun i hi => has_of_read? (h i hi)
  rw [hu, eq_of_bytes fun i hi => Option.some.inj ((memRead_bytes hu hi).symm.trans (h i hi))]

theorem exists_memRead_iff {m : Memory} {p n : Nat} :
    (∃ v, memRead m p n = some v) ↔ ∀ i, i < n → m.has (p + i) = true :=
  ⟨fun ⟨_, hv⟩ _ hi => has_of_read? (memRead_bytes hv hi), memRead_isSome⟩

theorem exists_memWrite_iff {m : Memory} {p n : Nat} {v : BitVec (8 * n)} :
    (∃ m', memWrite m p n v = some m') ↔ ∀ i, i < n → m.has (p + i) = true := by
  refine ⟨fun ⟨m', hm⟩ i hi => ?_, memWrite_isSome v⟩
  by_contra hn
  rw [memWrite_eq_none v hi (Bool.eq_false_iff.mpr hn)] at hm
  cases hm

/-- Reading some of the bytes just written returns that part of the value (R42). -/
theorem memRead_part_of_memWrite {m m' : Memory} {p n : Nat} {v : BitVec (8 * n)} (hw : m.wf = true)
    (h : memWrite m p n v = some m') {k l : Nat} (hkl : k + l ≤ n) :
    memRead m' (p + k) l = some (v.extractLsb' (8 * k) (8 * l)) := by
  refine memRead_of_bytes fun i hi => ?_
  rw [extractLsb'_byte_of_part v hi, Nat.add_assoc]
  exact memWrite_bytes hw h (by omega)

/-- Reading all the bytes just written returns the value. -/
theorem memRead_of_memWrite {m m' : Memory} {p n : Nat} {v : BitVec (8 * n)} (hw : m.wf = true)
    (h : memWrite m p n v = some m') : memRead m' p n = some v :=
  memRead_of_bytes fun _ hi => memWrite_bytes hw h hi

/-- A store that meets the text is refused, whatever the domain (log 24). -/
theorem store_of_hitsText {n : AccessSize} {rd : RegNum} {v : Word} {s : State} {p : Nat}
    (hp : access s v n .store = .next p) (ht : hitsText s.params p n.bytes = true) :
    store n rd v s = .refused .storeToText := by
  simp [store, hp, ht]

/-- Settles O12, by the bytes that `MemRead` returns and the domain. -/
theorem memReadIsLittleEndian : Obligations.MemReadIsLittleEndian :=
  fun _ _ _ => ⟨fun _ hv _ hi => memRead_bytes hv hi, exists_memRead_iff⟩

/-- Settles O13, by the bytes and the frame of `MemWrite`, and the order of the checks of a store. -/
theorem memWriteWritesItsBytes : Obligations.MemWriteWritesItsBytes := by
  refine ⟨fun m m' p n v hw h => ?_, fun _ _ _ _ => exists_memWrite_iff,
    fun _ _ _ _ _ hp ht => store_of_hitsText hp ht⟩
  obtain ⟨hdom, -, hframe⟩ := memWrite_frame h
  exact ⟨fun i hi => memWrite_bytes hw h hi, hframe, hdom⟩

/-- Each byte of a read after a write is the byte written there, else the byte that was there (R42). -/
theorem memRead_byte_after_memWrite {m m' : Memory} {p q n k : Nat} {v : BitVec (8 * n)}
    {u : BitVec (8 * k)} (hw : m.wf = true) (h : memWrite m p n v = some m') (hu : memRead m' q k = some u)
    {j : Nat} (hj : j < k) :
    (p ≤ q + j ∧ q + j < p + n → u.extractLsb' (8 * j) 8 = v.extractLsb' (8 * (q + j - p)) 8) ∧
      (q + j < p ∨ p + n ≤ q + j → m.read? (q + j) = some (u.extractLsb' (8 * j) 8)) := by
  have hread := memRead_bytes hu hj
  obtain ⟨-, -, hframe⟩ := memWrite_frame h
  refine ⟨fun ⟨hle, hlt⟩ => ?_, fun hout => (hframe _ hout).symm.trans hread⟩
  have hwritten := memWrite_bytes hw h (show q + j - p < n by omega)
  rw [Nat.add_sub_cancel' hle] at hwritten
  exact Option.some.inj (hread.symm.trans hwritten)

/-- A byte written over byte k of a wider value that was just written replaces that byte of it alone (R42). -/
theorem memRead_after_inner_byte {m m' m'' : Memory} {p n k : Nat} {v w : BitVec (8 * n)} {b : Byte}
    (hw : m.wf = true) (h : memWrite m p n v = some m') (h' : memWrite m' (p + k) 1 b = some m'')
    (hk : w.extractLsb' (8 * k) 8 = b)
    (hrest : ∀ i, i < n → i ≠ k → w.extractLsb' (8 * i) 8 = v.extractLsb' (8 * i) 8) :
    memRead m'' p n = some w := by
  obtain ⟨-, hwf, -⟩ := memWrite_frame h
  obtain ⟨-, -, hframe⟩ := memWrite_frame h'
  refine memRead_of_bytes fun i hi => ?_
  by_cases hik : i = k
  · subst hik
    rw [hk]
    simpa using memWrite_bytes (hwf hw) h' Nat.one_pos
  · rw [hrest i hi hik, hframe _ (by omega)]
    exact memWrite_bytes hw h hi

/-- Settles O14: the bytes after a write in general, then the spec's numbers as parts of the doubleword. -/
theorem mixedWidthAccesses : Obligations.MixedWidthAccesses := by
  refine ⟨fun m m' p q n k v u hw h hu j hj => memRead_byte_after_memWrite hw h hu hj, fun m m' p hw h => ?_⟩
  have part (k l : Nat) (hkl : k + l ≤ 8) := memRead_part_of_memWrite (n := 8) hw h hkl
  exact ⟨part 0 1 (by decide), part 7 1 (by decide), part 0 2 (by decide), part 2 2 (by decide),
    part 0 4 (by decide), part 4 4 (by decide),
    fun m'' h' => memRead_after_inner_byte (n := 8) hw h h' (by decide) (by decide)⟩

end Sys2Proof.Machine
end

section
/-! PROOFS. The family of 20_memory.md, the open parameters: `AddrLegal` (R44, log 6) and `Translate` (R45, log 7)
allow exactly the functions that the spec allows, and aligned accesses stay in one block (R46). -/

namespace Sys2Proof.Machine

/-! ### AddrLegal -/

theorem addrLegal_iff {l : List IllegalSpan} {v : Word} {n : AccessSize} {k : AccessKind} :
    addrLegal l v n k = true ↔ v.toNat + n.bytes ≤ 2 ^ 64 ∧ ∀ g ∈ l, g.covers v n k = false := by
  simp [addrLegal]

theorem IllegalSpan.covers_iff {g : IllegalSpan} {v : Word} {n : AccessSize} {k : AccessKind} :
    g.covers v n k = true ↔ (g.first ≤ v ∧ v ≤ g.last) ∧ (g.size = none ∨ g.size = some n) ∧
      (g.kind = none ∨ g.kind = some k) := by
  simp [IllegalSpan.covers, and_assoc]

/-- The span of one access: one address, one size, one kind. -/
def pointSpan (v : Word) (n : AccessSize) (k : AccessKind) : IllegalSpan :=
  { first := v, last := v, size := some n, kind := some k }

theorem pointSpan_covers_iff {a v : Word} {m n : AccessSize} {j k : AccessKind} :
    (pointSpan a m j).covers v n k = true ↔ a = v ∧ m = n ∧ j = k := by
  simp only [IllegalSpan.covers_iff, pointSpan, reduceCtorEq, false_or, Option.some.injEq]
  exact and_congr_left' (by bv_omega)

/-- Every size with every kind. -/
def accessShapes : List (AccessSize × AccessKind) :=
  [.byte, .halfword, .word, .doubleword].product [.load, .store]

theorem mem_accessShapes (n : AccessSize) (k : AccessKind) : (n, k) ∈ accessShapes := by
  cases n <;> cases k <;> decide

/-- The spans of the accesses at one address that a function rejects. -/
def rejectedAt (f : Word → AccessSize → AccessKind → Bool) (v : Word) : List IllegalSpan :=
  (accessShapes.filter fun x => !f v x.1 x.2).map fun x => pointSpan v x.1 x.2

theorem mem_rejectedAt {f : Word → AccessSize → AccessKind → Bool} {v : Word} {g : IllegalSpan} :
    g ∈ rejectedAt f v ↔ ∃ n k, f v n k = false ∧ g = pointSpan v n k := by
  simp only [rejectedAt, List.mem_map, List.mem_filter, Bool.not_eq_true', Prod.exists]
  constructor
  · rintro ⟨n, k, ⟨-, h⟩, rfl⟩
    exact ⟨n, k, h, rfl⟩
  · rintro ⟨n, k, h, rfl⟩
    exact ⟨n, k, ⟨mem_accessShapes n k, h⟩, rfl⟩

/-- There are finitely many words, so a list for each of them makes one list. -/
theorem exists_list_over_words {α : Type} (g : Word → List α) : ∃ l : List α, ∀ x, x ∈ l ↔ ∃ v, x ∈ g v :=
  ⟨Finset.univ.toList.flatMap g, fun x => by simp⟩

/-- Settles O18: the spans of all accesses that the function rejects, one by one. -/
theorem everyAddrLegalIsRepresented : Obligations.EveryAddrLegalIsRepresented := by
  intro f hf
  obtain ⟨l, hl⟩ := exists_list_over_words (rejectedAt f)
  refine ⟨l, fun v n k => ?_⟩
  rw [Bool.eq_iff_iff, addrLegal_iff]
  constructor
  · rintro ⟨-, h⟩
    by_contra hrej
    have hmem := (hl _).mpr ⟨v, mem_rejectedAt.mpr ⟨n, k, Bool.eq_false_iff.mpr hrej, rfl⟩⟩
    exact Bool.eq_false_iff.mp (h _ hmem) (pointSpan_covers_iff.mpr ⟨rfl, rfl, rfl⟩)
  · refine fun h => ⟨hf v n k h, fun g hg => Bool.eq_false_iff.mpr fun hc => ?_⟩
    obtain ⟨a, ha⟩ := (hl g).mp hg
    obtain ⟨m, j, hrej, rfl⟩ := mem_rejectedAt.mp ha
    obtain ⟨rfl, rfl, rfl⟩ := pointSpan_covers_iff.mp hc
    cases h.symm.trans hrej

/-! ### Translate -/

/-- A translation moved up by some bytes; a fault stays the same fault. -/
def XlatResult.plus (r : XlatResult) (i : Nat) : XlatResult :=
  match r with
  | .ok p => .ok (p + i)
  | .fault c => .fault c

theorem XlatEntry.covers_iff {e : XlatEntry} {b : Nat} {k : AccessKind} :
    e.covers b k = true ↔
      (e.firstBlock ≤ b ∧ b < e.firstBlock + e.blocks) ∧ (e.kind = none ∨ e.kind = some k) := by
  simp [XlatEntry.covers]

theorem covers_of_find? {l : List XlatEntry} {b : Nat} {k : AccessKind} {e : XlatEntry}
    (h : l.find? (fun e => e.covers b k) = some e) : e.covers b k = true :=
  List.find?_some (p := fun e : XlatEntry => e.covers b k) h

/-- Where no entry covers the block, `Translate` is the identity (R45). -/
theorem translateAddr_of_find?_none {l : List XlatEntry} {v : Word} {k : AccessKind}
    (h : l.find? (fun e => e.covers (v.toNat / 8) k) = none) : translateAddr l v k = .ok v.toNat := by
  rw [translateAddr, h]

/-- Where an entry covers the block first, it decides (log 7). -/
theorem translateAddr_of_find? {l : List XlatEntry} {v : Word} {k : AccessKind} {e : XlatEntry}
    (h : l.find? (fun e => e.covers (v.toNat / 8) k) = some e) :
    translateAddr l v k = e.target.plus (8 * (v.toNat / 8 - e.firstBlock) + v.toNat % 8) := by
  rw [translateAddr, h]
  cases ht : e.target <;> simp [ht, XlatResult.plus, Nat.add_assoc]

theorem plus_plus (r : XlatResult) (i j : Nat) : (r.plus i).plus j = r.plus (i + j) := by
  cases r with
  | ok p => exact congrArg XlatResult.ok (Nat.add_assoc p i j)
  | fault c => rfl

theorem toNat_add_ofNat {v : Word} {i : Nat} (h : v.toNat + i < 2 ^ 64) :
    (v + BitVec.ofNat 64 i).toNat = v.toNat + i := by
  rw [BitVec.toNat_add, BitVec.toNat_ofNat]
  omega

/-- Within a block, `Translate` of a later byte is the translation of the earlier one, moved up (R45). -/
theorem translateAddr_add {v : Word} {i : Nat} (h : v.toNat % 8 + i < 8) (l : List XlatEntry)
    (k : AccessKind) : translateAddr l (v + BitVec.ofNat 64 i) k = (translateAddr l v k).plus i := by
  have hnat : (v + BitVec.ofNat 64 i).toNat = v.toNat + i := toNat_add_ofNat (by have := v.isLt; omega)
  have hblock : (v + BitVec.ofNat 64 i).toNat / 8 = v.toNat / 8 := by omega
  have hbyte : (v + BitVec.ofNat 64 i).toNat % 8 = v.toNat % 8 + i := by omega
  cases hfind : l.find? fun e => e.covers (v.toNat / 8) k with
  | none =>
    rw [translateAddr_of_find?_none hfind, translateAddr_of_find?_none (hblock ▸ hfind), hnat]
    rfl
  | some e =>
    rw [translateAddr_of_find? hfind, translateAddr_of_find? (hblock ▸ hfind), hblock, hbyte, plus_plus,
      Nat.add_assoc]

/-- Entries that pass the launch's check translate below the top of the physical space. -/
theorem translateAddr_lt {l : List XlatEntry} {v : Word} {k : AccessKind} {p : Nat}
    (hl : translateBlockwise l = true) (h : translateAddr l v k = .ok p) : p < 2 ^ 64 := by
  cases hfind : l.find? fun e => e.covers (v.toNat / 8) k with
  | none =>
    cases (translateAddr_of_find?_none hfind).symm.trans h
    exact v.isLt
  | some e =>
    obtain ⟨⟨hfirst, hlast⟩, -⟩ := XlatEntry.covers_iff.mp (covers_of_find? hfind)
    have hblocks := List.all_eq_true.mp hl e (List.mem_of_find?_eq_some hfind)
    rw [translateAddr_of_find? hfind] at h
    cases ht : e.target with
    | fault c => rw [ht] at h; cases h
    | ok q =>
      rw [ht] at h hblocks
      cases h
      have hblocks : q + 8 * e.blocks ≤ 2 ^ 64 := of_decide_eq_true hblocks
      omega

/-- Settles O19: within a block the translation moves with the address. -/
theorem translateActsOnBlocks : Obligations.TranslateActsOnBlocks := by
  refine ⟨fun l a k i ha hi => ?_, translateAddr_nil, fun _ _ _ _ hl h => translateAddr_lt hl h⟩
  rw [translateAddr_add (by omega)]
  exact ⟨fun p hp => by rw [hp]; rfl, fun c hc => by rw [hc]; rfl⟩

/-- The first byte of an address's block. -/
def blockStart (v : Word) : Word := BitVec.ofNat 64 (8 * (v.toNat / 8))

theorem toNat_blockStart (v : Word) : (blockStart v).toNat = 8 * (v.toNat / 8) := by
  rw [blockStart, BitVec.toNat_ofNat]
  omega

theorem blockStart_add (v : Word) : blockStart v + BitVec.ofNat 64 (v.toNat % 8) = v := by
  refine BitVec.eq_of_toNat_eq ?_
  rw [toNat_add_ofNat (by rw [toNat_blockStart]; omega), toNat_blockStart, Nat.div_add_mod]

/-- R45's condition on `Translate`: a block is translated as a whole. -/
def Blockwise (f : Word → AccessKind → XlatResult) : Prop :=
  ∀ (a : Word) k i, a.toNat % 8 = 0 → i < 8 →
    (∀ p, f a k = .ok p → f (a + BitVec.ofNat 64 i) k = .ok (p + i)) ∧
      ∀ c, f a k = .fault c → f (a + BitVec.ofNat 64 i) k = .fault c

theorem blockwise_add {f : Word → AccessKind → XlatResult} (hf : Blockwise f) {a : Word} {i : Nat}
    (ha : a.toNat % 8 = 0) (hi : i < 8) (k : AccessKind) :
    f (a + BitVec.ofNat 64 i) k = (f a k).plus i := by
  obtain ⟨hok, hfault⟩ := hf a k i ha hi
  cases h : f a k with
  | ok p => exact hok p h
  | fault c => exact hfault c h

/-- Such a function is decided by the first bytes of the blocks. -/
theorem eq_plus_of_blockwise {f : Word → AccessKind → XlatResult} (hf : Blockwise f) (v : Word)
    (k : AccessKind) : f v k = (f (blockStart v) k).plus (v.toNat % 8) := by
  rw [← blockwise_add hf (by rw [toNat_blockStart]; omega) (Nat.mod_lt _ (by decide)), blockStart_add]

/-- The entry that says what a function makes of one block for one kind. -/
def blockEntry (f : Word → AccessKind → XlatResult) (v : Word) (k : AccessKind) : XlatEntry :=
  { firstBlock := v.toNat / 8, blocks := 1, kind := some k, target := f (blockStart v) k }

theorem blockEntry_covers_iff {f : Word → AccessKind → XlatResult} {a : Word} {j k : AccessKind} {b : Nat} :
    (blockEntry f a j).covers b k = true ↔ a.toNat / 8 = b ∧ j = k := by
  simp only [XlatEntry.covers_iff, blockEntry, Option.some.injEq, reduceCtorEq, false_or]
  exact and_congr_left' (by omega)

theorem blockEntry_congr {f : Word → AccessKind → XlatResult} {a v : Word}
    (h : a.toNat / 8 = v.toNat / 8) (k : AccessKind) : blockEntry f a k = blockEntry f v k := by
  rw [blockEntry, blockEntry, blockStart, blockStart, h]

/-- The entries for one block, one for each kind. -/
def blockEntries (f : Word → AccessKind → XlatResult) (v : Word) : List XlatEntry :=
  [.load, .store].map (blockEntry f v)

theorem mem_blockEntries {f : Word → AccessKind → XlatResult} {v : Word} {e : XlatEntry} :
    e ∈ blockEntries f v ↔ ∃ k, blockEntry f v k = e := by
  have hkind (k : AccessKind) : k ∈ [AccessKind.load, .store] := by cases k <;> decide
  simp only [blockEntries, List.mem_map, hkind, true_and]

/-- In a list of entries of single blocks that has one for every block, that one is found. -/
theorem find?_blockEntry {f : Word → AccessKind → XlatResult} {l : List XlatEntry}
    (hl : ∀ e, e ∈ l ↔ ∃ v, e ∈ blockEntries f v) (v : Word) (k : AccessKind) :
    l.find? (fun e => e.covers (v.toNat / 8) k) = some (blockEntry f v k) := by
  cases h : l.find? fun e => e.covers (v.toNat / 8) k with
  | none =>
    have hmem : blockEntry f v k ∈ l := (hl _).mpr ⟨v, mem_blockEntries.mpr ⟨k, rfl⟩⟩
    exact absurd (blockEntry_covers_iff.mpr ⟨rfl, rfl⟩) (List.find?_eq_none.mp h _ hmem)
  | some e =>
    obtain ⟨a, ha⟩ := (hl e).mp (List.mem_of_find?_eq_some h)
    obtain ⟨j, rfl⟩ := mem_blockEntries.mp ha
    obtain ⟨hblock, rfl⟩ := blockEntry_covers_iff.mp (covers_of_find? h)
    rw [blockEntry_congr hblock]

/-- The last byte of a block bounds the entry of the block (R192). -/
theorem blockEntry_below_top {f : Word → AccessKind → XlatResult} (hf : Blockwise f)
    (hlt : ∀ v k p, f v k = .ok p → p < 2 ^ 64) {v : Word} {k : AccessKind} {p : Nat}
    (h : (blockEntry f v k).target = .ok p) : p + 8 ≤ Config.physTop := by
  have hlast := blockwise_add hf (i := 7) (by rw [toNat_blockStart v]; omega) (by decide) k
  rw [show f (blockStart v) k = .ok p from h] at hlast
  exact hlt _ _ _ hlast

/-- Settles O20: one entry for every block and kind. -/
theorem everyTranslateIsRepresented : Obligations.EveryTranslateIsRepresented := by
  intro f hlt hf
  obtain ⟨l, hl⟩ := exists_list_over_words (blockEntries f)
  refine ⟨l, List.all_eq_true.mpr fun e he => ?_, fun v k => ?_⟩
  · obtain ⟨v, hv⟩ := (hl e).mp he
    obtain ⟨k, rfl⟩ := mem_blockEntries.mp hv
    cases ht : (blockEntry f v k).target with
    | ok p => exact decide_eq_true (blockEntry_below_top hf hlt ht)
    | fault c => rfl
  · rw [translateAddr_of_find? (find?_blockEntry hl v k), eq_plus_of_blockwise hf v k]
    simp [blockEntry]

/-! ### Aligned accesses -/

/-- No naturally aligned access leaves its block (R46). -/
theorem mod_eight_add_lt {v : Word} {n : AccessSize} {i : Nat} (h : v.toNat % n.bytes = 0)
    (hi : i < n.bytes) : v.toNat % 8 + i < 8 := by
  cases n <;> simp only [AccessSize.bytes] at h hi <;> omega

/-- Settles O21: every byte of the access is in the block of the first. -/
theorem alignedAccessStaysInOneBlock : Obligations.AlignedAccessStaysInOneBlock := by
  intro s v n k hl hal
  have hbyte (i : Nat) (hi : i < n.bytes) :
      translateAddr s.params.xlat (v + BitVec.ofNat 64 i) k = (translateAddr s.params.xlat v k).plus i :=
    translateAddr_add (mod_eight_add_lt hal hi) _ _
  refine ⟨fun p hp => access_of_reaches hl (.inl hal) fun i hi => ?_, fun c hc => ?_⟩
  · rw [hbyte i hi, hp]
    rfl
  · rcases access_cases s v n k with
      ⟨hn, -⟩ | ⟨-, ⟨hn, -⟩ | ⟨-, ⟨c', j, hj, hc', -, ha⟩ | ⟨-, p, hp, -⟩⟩⟩
    · cases hn.symm.trans hl
    · exact absurd hal hn
    · rw [hbyte j hj, hc] at hc'
      cases hc'
      exact ha
    · cases hp.symm.trans hc

end Sys2Proof.Machine
end

section
/-! PROOFS. The family of 20_memory.md, loads and stores: which access stops how (R46, R50, R51, R58), and what the
completed ones leave (R52, R100 to R110, R120 to R130, R140 to R143). -/

namespace Sys2Proof.Machine

/-! ### What Access answers -/

theorem access_eq_next_iff {s : State} {v : Word} {n : AccessSize} {k : AccessKind} {p : Nat} :
    access s v n k = .next p ↔ Reaches s v n k p :=
  ⟨access_eq_next, fun ⟨hl, hal, htr⟩ => access_of_reaches hl hal htr⟩

/-- `Access` refuses for one reason: the bytes all translate, but not to consecutive addresses (R46, R51). -/
theorem access_eq_refused_iff {s : State} {v : Word} {n : AccessSize} {k : AccessKind} {r : Refusal} :
    access s v n k = .refused r ↔ r = .nonContiguousAccess ∧ ∃ p,
      addrLegal s.params.illegal v n k = true ∧ AlignedOrAllowed s v n ∧
      (∀ j, j < n.bytes → ∃ q, translateAddr s.params.xlat (v + BitVec.ofNat 64 j) k = .ok q) ∧
      translateAddr s.params.xlat v k = .ok p ∧
      ∃ j, j < n.bytes ∧ translateAddr s.params.xlat (v + BitVec.ofNat 64 j) k ≠ .ok (p + j) := by
  rcases access_cases s v n k with
    ⟨hl, ha⟩ | ⟨hl, ⟨h0, hn, ha⟩ | ⟨hal, ⟨c, j, hj, hc, -, ha⟩ | ⟨hall, p, hp, ⟨hto, ha⟩ | ⟨hto, ha⟩⟩⟩⟩ <;>
    rw [ha]
  · simp [hl]
  · refine ⟨nofun, fun ⟨_, _, _, hal, _⟩ => ?_⟩
    exact (hal.elim h0 hn).elim
  · refine ⟨nofun, fun ⟨_, _, _, _, hall, _⟩ => ?_⟩
    obtain ⟨q, hq⟩ := hall j hj
    cases hq.symm.trans hc
  · refine ⟨nofun, fun ⟨_, p', _, _, _, hp', j, hj, hne⟩ => ?_⟩
    cases hp'.symm.trans hp
    exact absurd (hto j hj) hne
  · exact ⟨fun h => ⟨by cases h; rfl, p, hl, hal, hall, hp, hto⟩, fun ⟨hr, _⟩ => by rw [hr]⟩

/-- `Access` never answers that the machine is stuck: it touches no byte (R46, R50). -/
theorem access_ne_stuck (s : State) (v : Word) (n : AccessSize) (k : AccessKind) (pc : Word) :
    access s v n k ≠ .fault (.stuck pc) := by
  intro h
  rcases access_cases s v n k with
    ⟨-, ha⟩ | ⟨-, ⟨-, -, ha⟩ | ⟨-, ⟨c, j, -, -, -, ha⟩ | ⟨-, p, -, ⟨-, ha⟩ | ⟨-, ha⟩⟩⟩⟩ <;>
    cases ha.symm.trans h

/-! ### How an access decides its instruction -/

theorem exec_of_no_access {i : Instr} {s : State} (h : memAccess? i s = none) :
    exec i s = .next s.advance := by
  rcases exec_cases i with ⟨-, he⟩ | ⟨n, extend, rd, v, -, he, -⟩ | ⟨n, rd, v, -, -, he, -⟩
  · exact (he s).2
  · cases (he s).1.symm.trans h
  · cases (he s).1.symm.trans h

/-- Every load and store begins with its access. -/
theorem exec_eq_andThen_access {i : Instr} {s : State} {a : MemAccess} (ha : memAccess? i s = some a) :
    ∃ g : Nat → Answer State, exec i s = andThen (access s a.vaddr a.size a.kind) g := by
  cases hk : a.kind with
  | load =>
    obtain ⟨extend, rd, -, he⟩ := exec_of_load_access ha hk
    exact ⟨_, he⟩
  | store =>
    obtain ⟨rd, he⟩ := exec_of_store_access ha hk
    exact ⟨_, he⟩

theorem exec_of_access_fault {i : Instr} {s : State} {a : MemAccess} {f : Fault}
    (ha : memAccess? i s = some a) (h : access s a.vaddr a.size a.kind = .fault f) :
    exec i s = .fault f := by
  obtain ⟨g, he⟩ := exec_eq_andThen_access ha
  rw [he, h, andThen_fault]

theorem exec_of_access_refused {i : Instr} {s : State} {a : MemAccess} {r : Refusal}
    (ha : memAccess? i s = some a) (h : access s a.vaddr a.size a.kind = .refused r) :
    exec i s = .refused r := by
  obtain ⟨g, he⟩ := exec_eq_andThen_access ha
  rw [he, h, andThen_refused]

/-- What an instruction does once its access has gone through: a store into the text is refused (R58), an access
that leaves the domain is stuck (R50), and every other completes. -/
theorem exec_cases_of_access_next {i : Instr} {s : State} {a : MemAccess} {p : Nat}
    (ha : memAccess? i s = some a) (h : access s a.vaddr a.size a.kind = .next p) :
    (a.kind = .store ∧ hitsText s.params p a.size.bytes = true) ∧ exec i s = .refused .storeToText ∨
    (a.kind = .store → hitsText s.params p a.size.bytes = false) ∧
      ((∃ j, j < a.size.bytes ∧ s.mem.has (p + j) = false) ∧ exec i s = .fault (.stuck s.pc) ∨
        (∀ j, j < a.size.bytes → s.mem.has (p + j) = true) ∧ ∃ t, exec i s = .next t) := by
  cases hk : a.kind with
  | load =>
    obtain ⟨extend, rd, -, he⟩ := exec_of_load_access ha hk
    rw [hk] at h
    refine .inr ⟨nofun, ?_⟩
    cases hb : memRead s.mem p a.size.bytes with
    | none => exact .inl ⟨memRead_eq_none_iff.mp hb, by rw [he]; simp [load, h, hb]⟩
    | some b => exact .inr ⟨exists_memRead_iff.mp ⟨b, hb⟩, _, he.trans (load_of_access h hb)⟩
  | store =>
    obtain ⟨rd, he⟩ := exec_of_store_access ha hk
    rw [hk] at h
    cases ht : hitsText s.params p a.size.bytes with
    | true => exact .inl ⟨⟨rfl, rfl⟩, he.trans (store_of_hitsText h ht)⟩
    | false =>
      refine .inr ⟨fun _ => rfl, ?_⟩
      cases hm : memWrite s.mem p a.size.bytes ((s.gr rd).setWidth (8 * a.size.bytes)) with
      | none => exact .inl ⟨memWrite_eq_none_iff.mp hm, by rw [he]; simp [store, h, ht, hm]⟩
      | some m => exact .inr ⟨exists_memWrite_iff.mp ⟨m, hm⟩, _, he.trans (store_of_access h ht hm)⟩

/-- An instruction that does not complete has an access, which stopped in the same way, or went through. -/
theorem access_of_not_completed {i : Instr} {s : State} (h : ∀ t, exec i s ≠ .next t) :
    ∃ a, memAccess? i s = some a ∧
      ((∃ f, access s a.vaddr a.size a.kind = .fault f ∧ exec i s = .fault f) ∨
        (∃ r, access s a.vaddr a.size a.kind = .refused r ∧ exec i s = .refused r) ∨
        ∃ p, access s a.vaddr a.size a.kind = .next p) := by
  cases ha : memAccess? i s with
  | none => exact absurd (exec_of_no_access ha) (h _)
  | some a =>
    refine ⟨a, rfl, ?_⟩
    cases hacc : access s a.vaddr a.size a.kind with
    | next p => exact .inr (.inr ⟨p, rfl⟩)
    | fault f => exact .inl ⟨f, rfl, exec_of_access_fault ha hacc⟩
    | refused r => exact .inr (.inl ⟨r, rfl, exec_of_access_refused ha hacc⟩)

/-! ### When an instruction does not complete -/

/-- Settles O17: without spans only wraps are rejected, with spans more, and the check of `AddrLegal` is the first
of the access. -/
theorem addrLegalRejectsWraps : Obligations.AddrLegalRejectsWraps := by
  refine ⟨fun l v n k h => (addrLegal_iff.mp h).1, addrLegal_nil, fun i s a ha hl => ?_⟩
  rcases access_cases s a.vaddr a.size a.kind with ⟨-, h⟩ | ⟨hl', -⟩
  · exact exec_of_access_fault ha h
  · cases hl'.symm.trans hl

/-- Settles O25, by the one reason for which `Access` refuses. -/
theorem nonContiguousAccessExactlyWhen : Obligations.NonContiguousAccessExactlyWhen := by
  refine fun i s => ⟨fun h => ?_, fun ⟨a, p, ha, hwhen⟩ =>
    exec_of_access_refused ha (access_eq_refused_iff.mpr ⟨rfl, p, hwhen⟩)⟩
  obtain ⟨a, ha, ⟨f, -, he⟩ | ⟨r, hacc, he⟩ | ⟨p, hacc⟩⟩ :=
    access_of_not_completed fun t e => nomatch e.symm.trans h
  · cases he.symm.trans h
  · cases he.symm.trans h
    obtain ⟨-, p, hwhen⟩ := access_eq_refused_iff.mp hacc
    exact ⟨a, p, ha, hwhen⟩
  · rcases exec_cases_of_access_next ha hacc with ⟨-, he⟩ | ⟨-, ⟨-, he⟩ | ⟨-, t, he⟩⟩ <;>
      cases he.symm.trans h

/-- Settles O26: the fetch reads no memory, and the text is met after the access alone. -/
theorem storeToTextExactlyWhen : Obligations.StoreToTextExactlyWhen := by
  refine ⟨fun s m => rfl, fun i s => ⟨fun h => ?_, ?_⟩⟩
  · obtain ⟨a, ha, ⟨f, -, he⟩ | ⟨r, hacc, he⟩ | ⟨p, hacc⟩⟩ :=
      access_of_not_completed fun t e => nomatch e.symm.trans h
    · cases he.symm.trans h
    · obtain ⟨rfl, -⟩ := access_eq_refused_iff.mp hacc
      cases he.symm.trans h
    · rcases exec_cases_of_access_next ha hacc with ⟨⟨hk, ht⟩, -⟩ | ⟨-, ⟨-, he⟩ | ⟨-, t, he⟩⟩
      · exact ⟨a, p, ha, hk, access_eq_next hacc, hitsText_iff.mp ht⟩
      · cases he.symm.trans h
      · cases he.symm.trans h
  · rintro ⟨a, p, ha, hk, hreach, htext⟩
    rcases exec_cases_of_access_next ha (access_eq_next_iff.mpr hreach) with ⟨-, he⟩ | ⟨ht, -⟩
    · exact he
    · cases (ht hk).symm.trans (hitsText_iff.mpr htext)

/-- Settles O27: only a read or write outside the domain is stuck, and the access comes before it. -/
theorem stuckExactlyWhen : Obligations.StuckExactlyWhen := by
  refine fun i s pc => ⟨fun h => ⟨exec_fault_pc h, ?_⟩, ?_⟩
  · obtain ⟨a, ha, ⟨f, hacc, he⟩ | ⟨r, -, he⟩ | ⟨p, hacc⟩⟩ :=
      access_of_not_completed fun t e => nomatch e.symm.trans h
    · cases he.symm.trans h
      exact absurd hacc (access_ne_stuck s _ _ _ pc)
    · cases he.symm.trans h
    · rcases exec_cases_of_access_next ha hacc with ⟨-, he⟩ | ⟨ht, ⟨hout, -⟩ | ⟨-, t, he⟩⟩
      · cases he.symm.trans h
      · exact ⟨a, p, ha, access_eq_next hacc, ht, hout⟩
      · cases he.symm.trans h
  · rintro ⟨rfl, a, p, ha, hreach, ht, j, hj, hout⟩
    rcases exec_cases_of_access_next ha (access_eq_next_iff.mpr hreach) with
      ⟨⟨hk, ht'⟩, -⟩ | ⟨-, ⟨-, he⟩ | ⟨hin, -⟩⟩
    · cases (ht hk).symm.trans ht'
    · exact he
    · cases (hin j hj).symm.trans hout

/-! ### Completed loads -/

/-- A write of a register and the advance are what a completed load leaves. -/
theorem loadDone_setGr (s : State) (rd : RegNum) (v : Word) :
    LoadDone s rd v (.next (s.setGr rd v).advance) := by
  refine ⟨_, rfl, ?_, fun r hr => by simp [gr_setGr_of_ne s hr], by simp, by simp, by simp⟩
  by_cases h : rd = 0
  · subst h
    rfl
  · rw [if_neg h, gr_advance, gr_setGr_self s h]

/-- A load whose access reaches bytes that exist completes with their extended value (R52). -/
theorem loadDone_of_reaches {s : State} {v : Word} {n : AccessSize} {p : Nat} {b : BitVec (8 * n.bytes)}
    (hreach : Reaches s v n .load p) (hb : memRead s.mem p n.bytes = some b)
    (extend : BitVec (8 * n.bytes) → Word) (rd : RegNum) :
    LoadDone s rd (extend b) (load n extend rd v s) := by
  rw [load_of_access (access_eq_next_iff.mpr hreach) hb]
  exact loadDone_setGr s rd (extend b)

/-- Settles O29, by the shared load with either extension. -/
theorem byteLoadsComplete : Obligations.ByteLoadsComplete := by
  intro s rd v p b hreach hb
  have hdone := loadDone_of_reaches hreach (memRead_one hb)
  exact ⟨by rintro rj d rfl; exact ⟨hdone sext64 rd, hdone zext64 rd⟩,
    by rintro rj rk rfl; exact ⟨hdone sext64 rd, hdone zext64 rd⟩⟩

/-- Settles O30, by the shared load with either extension. -/
theorem halfwordLoadsComplete : Obligations.HalfwordLoadsComplete := by
  intro s rd v p b hreach hb
  have hdone := loadDone_of_reaches hreach (memRead_two hb)
  exact ⟨by rintro rj d rfl; exact ⟨hdone sext64 rd, hdone zext64 rd⟩,
    by rintro rj rk rfl; exact ⟨hdone sext64 rd, hdone zext64 rd⟩⟩

/-- Settles O31, by the shared load with either extension. -/
theorem wordLoadsComplete : Obligations.WordLoadsComplete := by
  intro s rd v p b hreach hb
  have hdone := loadDone_of_reaches hreach (memRead_four hb)
  exact ⟨by rintro rj d rfl; exact ⟨hdone sext64 rd, hdone zext64 rd⟩,
    by rintro rj rk rfl; exact ⟨hdone sext64 rd, hdone zext64 rd⟩,
    by rintro rj d rfl; exact hdone sext64 rd⟩

/-- Settles O32, by the shared load without extension. -/
theorem doublewordLoadsComplete : Obligations.DoublewordLoadsComplete := by
  intro s rd v p b hreach hb
  have hdone := loadDone_of_reaches hreach (memRead_eight hb) whole rd
  exact ⟨by rintro rj d rfl; exact hdone, by rintro rj rk rfl; exact hdone, by rintro rj d rfl; exact hdone⟩

/-! ### Completed stores -/

/-- The bytes that a store takes from a register are the register's low bytes. -/
theorem byte_of_stored (n : AccessSize) (w : Word) {i : Nat} (hi : i < n.bytes) :
    (w.setWidth (8 * n.bytes)).extractLsb' (8 * i) 8 = w.extractLsb' (8 * i) 8 :=
  BitVec.extractLsb'_setWidth_of_le (by omega)

/-- A store whose access reaches bytes that exist and are not of the text completes (R49, R52). -/
theorem storeDone_of_reaches {s : State} {v : Word} {n : AccessSize} {p : Nat} {b : Nat → Byte}
    (hw : s.mem.wf = true) (hreach : Reaches s v n .store p) (hb : Holds s.mem p n.bytes b)
    (ht : hitsText s.params p n.bytes = false) (rd : RegNum) :
    StoreDone s p n.bytes (s.gr rd) (store n rd v s) := by
  obtain ⟨m, hm⟩ := memWrite_isSome ((s.gr rd).setWidth (8 * n.bytes)) fun i hi => has_of_read? (hb i hi)
  obtain ⟨hdom, -, hframe⟩ := memWrite_frame hm
  refine ⟨_, store_of_access (access_eq_next_iff.mpr hreach) ht hm, fun i hi => ?_, hframe, hdom,
    fun r => rfl, rfl, rfl⟩
  rw [← byte_of_stored n (s.gr rd) hi]
  exact memWrite_bytes hw hm hi

/-- Settles O34, by the shared store. -/
theorem halfwordStoresComplete : Obligations.HalfwordStoresComplete := by
  intro s rd v p b hw hreach hb ht
  have hdone := storeDone_of_reaches hw hreach hb ht rd
  exact ⟨by rintro rj d rfl; exact hdone, by rintro rj rk rfl; exact hdone⟩

/-- Settles O35, by the shared store. -/
theorem wordStoresComplete : Obligations.WordStoresComplete := by
  intro s rd v p b hw hreach hb ht
  have hdone := storeDone_of_reaches hw hreach hb ht rd
  exact ⟨by rintro rj d rfl; exact hdone, by rintro rj rk rfl; exact hdone, by rintro rj d rfl; exact hdone⟩

/-- Settles O36, by the shared store. -/
theorem doublewordStoresComplete : Obligations.DoublewordStoresComplete := by
  intro s rd v p b hw hreach hb ht
  have hdone := storeDone_of_reaches hw hreach hb ht rd
  exact ⟨by rintro rj d rfl; exact hdone, by rintro rj rk rfl; exact hdone, by rintro rj d rfl; exact hdone⟩

/-! ### A load after a store -/

/-- After a completed store, a load of the same size at an address that translates alike reaches the stored bytes
and completes with them, extended (R42, R194). -/
theorem loadDone_after_store {s t : State} {v : Word} {n : AccessSize} {rd : RegNum} (hw : s.mem.wf = true)
    (hl : addrLegal s.params.illegal v n .load = true)
    (htr : ∀ i, i < n.bytes → translateAddr s.params.xlat (v + BitVec.ofNat 64 i) .load =
      translateAddr s.params.xlat (v + BitVec.ofNat 64 i) .store)
    (h : store n rd v s = .next t) (extend : BitVec (8 * n.bytes) → Word) (rq : RegNum) :
    LoadDone t rq (extend ((s.gr rd).setWidth (8 * n.bytes))) (load n extend rq v t) := by
  obtain ⟨p, m, hacc, -, hm, rfl⟩ := store_eq_next h
  obtain ⟨-, hal, hto⟩ := access_eq_next hacc
  have hreach : Reaches (State.advance { s with mem := m }) v n .load p :=
    ⟨hl, hal, fun i hi => (htr i hi).trans (hto i hi)⟩
  exact loadDone_of_reaches hreach (memRead_of_memWrite hw hm) extend rq

/-- The same with base and displacement: the store leaves the base as it is (R55). -/
theorem loadDone_after_store12 {s t : State} {rj : RegNum} {d : BitVec 12} {n : AccessSize} {rd : RegNum}
    (hw : s.mem.wf = true) (hl : addrLegal s.params.illegal (vaddr12 s rj d) n .load = true)
    (htr : ∀ i, i < n.bytes → translateAddr s.params.xlat (vaddr12 s rj d + BitVec.ofNat 64 i) .load =
      translateAddr s.params.xlat (vaddr12 s rj d + BitVec.ofNat 64 i) .store)
    (h : store n rd (vaddr12 s rj d) s = .next t) (extend : BitVec (8 * n.bytes) → Word) (rq : RegNum) :
    LoadDone t rq (extend ((s.gr rd).setWidth (8 * n.bytes))) (load n extend rq (vaddr12 t rj d) t) := by
  obtain ⟨-, hx, -⟩ := store_frame h
  rw [vaddr12_congr (gr_congr hx rj) d]
  exact loadDone_after_store hw hl htr h extend rq

/-- Settles O44, size by size. -/
theorem loadAfterStoreReturnsTheStoredBits : Obligations.LoadAfterStoreReturnsTheStoredBits := by
  intro s t rd rq rj d n hw hl htr
  have hdone := loadDone_after_store12 (rd := rd) (t := t) hw hl htr
  refine ⟨?_, ?_, ?_, ?_⟩ <;> rintro rfl h
  · exact ⟨hdone h sext64 rq, hdone h zext64 rq⟩
  · exact ⟨hdone h sext64 rq, hdone h zext64 rq⟩
  · exact ⟨hdone h sext64 rq, hdone h zext64 rq⟩
  · have hwhole : whole ((s.gr rd).setWidth 64) = s.gr rd := BitVec.setWidth_eq _
    have hload := hdone h whole rq
    exact hwhole ▸ hload

end Sys2Proof.Machine
end

section
/-! PROOFS. The family of 30_encoding.md, words: the opcode maps of R77 to R79 as one table, the decoder as the
search of it, and the encoder as its inverse (R72 to R76). -/

namespace Sys2Proof

/-! ### The opcode maps as one table (R76) -/

/-- A row of the opcode maps: its `(mask, match)`, and the instruction it reads from the fields of a word. -/
structure MapRow where
  mask : InstrWord
  pattern : InstrWord
  read : InstrWord → Instr

/-- The row is matched by the word (R76). -/
abbrev MapRow.Matches (r : MapRow) (w : InstrWord) : Prop := w &&& r.mask = r.pattern

/-- The row's instruction, where the word matches it. -/
def MapRow.read? (r : MapRow) (w : InstrWord) : Option Instr :=
  if r.Matches w then some (r.read w) else none

theorem MapRow.read?_of_matches {r : MapRow} {w : InstrWord} (h : r.Matches w) :
    r.read? w = some (r.read w) := if_pos h

theorem MapRow.read?_of_not_matches {r : MapRow} {w : InstrWord} (h : ¬ r.Matches w) :
    r.read? w = none := if_neg h

theorem MapRow.read?_eq_some_iff {r : MapRow} {w : InstrWord} {i : Instr} :
    r.read? w = some i ↔ r.Matches w ∧ r.read w = i := by
  simp [MapRow.read?]

/-- The patterns of the two rows differ in a bit that both masks keep. -/
abbrev MapRow.Excludes (r q : MapRow) : Prop := r.pattern &&& q.mask ≠ q.pattern &&& r.mask

def row2RI12 (r : BitVec 10 × (BitVec 5 → BitVec 5 → BitVec 12 → Instr)) : MapRow :=
  { mask := 0xFFC00000, pattern := r.1 ++ 0#22, read := fun w => r.2 (fieldRd w) (fieldRj w) (fieldSi12 w) }

def row2RI14 (r : BitVec 8 × (BitVec 5 → BitVec 5 → BitVec 14 → Instr)) : MapRow :=
  { mask := 0xFF000000, pattern := r.1 ++ 0#24, read := fun w => r.2 (fieldRd w) (fieldRj w) (fieldSi14 w) }

def row3R (r : BitVec 17 × (BitVec 5 → BitVec 5 → BitVec 5 → Instr)) : MapRow :=
  { mask := 0xFFFF8000, pattern := r.1 ++ 0#15, read := fun w => r.2 (fieldRd w) (fieldRj w) (fieldRk w) }

/-- The 28 rows, in the order in which the decoder tries them. -/
def opcodeMaps : List MapRow :=
  rows2RI14.map row2RI14 ++ (rows2RI12.map row2RI12 ++ rows3R.map row3R)

theorem mem_opcodeMaps {r : MapRow} : r ∈ opcodeMaps ↔
    (∃ e ∈ rows2RI14, row2RI14 e = r) ∨ (∃ e ∈ rows2RI12, row2RI12 e = r) ∨ ∃ e ∈ rows3R, row3R e = r := by
  simp only [opcodeMaps, List.mem_append, List.mem_map]

theorem row2RI12_mem {e : BitVec 10 × (BitVec 5 → BitVec 5 → BitVec 12 → Instr)} (he : e ∈ rows2RI12) :
    row2RI12 e ∈ opcodeMaps := mem_opcodeMaps.mpr (.inr (.inl ⟨e, he, rfl⟩))

theorem row2RI14_mem {e : BitVec 8 × (BitVec 5 → BitVec 5 → BitVec 14 → Instr)} (he : e ∈ rows2RI14) :
    row2RI14 e ∈ opcodeMaps := mem_opcodeMaps.mpr (.inl ⟨e, he, rfl⟩)

theorem row3R_mem {e : BitVec 17 × (BitVec 5 → BitVec 5 → BitVec 5 → Instr)} (he : e ∈ rows3R) :
    row3R e ∈ opcodeMaps := mem_opcodeMaps.mpr (.inr (.inr ⟨e, he, rfl⟩))

theorem row2RI12_matches_iff {e : BitVec 10 × (BitVec 5 → BitVec 5 → BitVec 12 → Instr)} {w : InstrWord} :
    (row2RI12 e).Matches w ↔ w.extractLsb' 22 10 = e.1 := and_mask2RI12 w e.1

theorem row2RI14_matches_iff {e : BitVec 8 × (BitVec 5 → BitVec 5 → BitVec 14 → Instr)} {w : InstrWord} :
    (row2RI14 e).Matches w ↔ w.extractLsb' 24 8 = e.1 := and_mask2RI14 w e.1

theorem row3R_matches_iff {e : BitVec 17 × (BitVec 5 → BitVec 5 → BitVec 5 → Instr)} {w : InstrWord} :
    (row3R e).Matches w ↔ w.extractLsb' 15 17 = e.1 := and_mask3R w e.1

/-- "No word satisfies two rows" (R76), as a fact about the 28 masks and patterns. -/
theorem opcodeMaps_exclusive : opcodeMaps.Pairwise MapRow.Excludes := by decide

/-- A word matches at most one of two rows that exclude each other. -/
theorem MapRow.Excludes.not_matches {r q : MapRow} (h : r.Excludes q) {w : InstrWord} (hq : q.Matches w) :
    ¬ r.Matches w := by
  intro hr
  apply h
  rw [← hr, ← hq, BitVec.and_assoc, BitVec.and_assoc, BitVec.and_comm r.mask]

/-! ### The decoder searches the table -/

/-- A lookup by opcode that goes on to read the word is a search for the row the word matches. -/
theorem map_lookup_eq_findSome? {α β : Type} [BEq α] [LawfulBEq α] (l : List (α × β)) (a : α) (w : InstrWord)
    (read : β → Instr) (row : α × β → MapRow) (hm : ∀ e, (row e).Matches w ↔ a = e.1)
    (hr : ∀ e, (row e).read w = read e.2) :
    (l.lookup a).map read = (l.map row).findSome? (MapRow.read? · w) := by
  rw [List.lookup_eq_findSome?, List.map_findSome?, List.findSome?_map]
  congr 1
  funext e
  by_cases h : a = e.1
  · simp [h, MapRow.read?_of_matches ((hm e).mpr h), hr]
  · simp [h, MapRow.read?_of_not_matches (mt (hm e).mp h)]

theorem decode2RI12_eq_search (w : InstrWord) :
    decode2RI12 w = (rows2RI12.map row2RI12).findSome? (MapRow.read? · w) :=
  map_lookup_eq_findSome? _ _ w _ _ (fun _ => row2RI12_matches_iff) fun _ => rfl

theorem decode2RI14_eq_search (w : InstrWord) :
    decode2RI14 w = (rows2RI14.map row2RI14).findSome? (MapRow.read? · w) :=
  map_lookup_eq_findSome? _ _ w _ _ (fun _ => row2RI14_matches_iff) fun _ => rfl

theorem decode3R_eq_search (w : InstrWord) :
    decode3R w = (rows3R.map row3R).findSome? (MapRow.read? · w) :=
  map_lookup_eq_findSome? _ _ w _ _ (fun _ => row3R_matches_iff) fun _ => rfl

/-- R76: decoding is a search of the opcode maps. -/
theorem decode_eq_search (w : InstrWord) :
    decode w = (opcodeMaps.findSome? (MapRow.read? · w)).elim (.error (.notInScope w)) .ok := by
  rw [opcodeMaps, List.findSome?_append, List.findSome?_append,
    ← decode2RI14_eq_search, ← decode2RI12_eq_search, ← decode3R_eq_search, decode]
  cases (decode2RI14 w).or ((decode2RI12 w).or (decode3R w)) <;> rfl

/-- Among rows that exclude each other, the search answers by the row that the word matches. -/
theorem search_eq_of_matches {l : List MapRow} (hl : l.Pairwise MapRow.Excludes) {r : MapRow} (hr : r ∈ l)
    {w : InstrWord} (hw : r.Matches w) : l.findSome? (MapRow.read? · w) = some (r.read w) := by
  induction l with
  | nil => cases hr
  | cons q l ih =>
    obtain ⟨hq, hl⟩ := List.pairwise_cons.mp hl
    rcases List.mem_cons.mp hr with rfl | hr
    · rw [List.findSome?_cons, MapRow.read?_of_matches hw]
    · rw [List.findSome?_cons, MapRow.read?_of_not_matches ((hq r hr).not_matches hw)]
      exact ih hl hr

/-- The two outcomes of decoding: a row of the table reads the word, or the word is refused by name (R76, R80). -/
theorem decode_cases (w : InstrWord) :
    (∃ r ∈ opcodeMaps, r.Matches w ∧ decode w = .ok (r.read w)) ∨ decode w = .error (.notInScope w) := by
  rw [decode_eq_search]
  cases h : opcodeMaps.findSome? (MapRow.read? · w) with
  | none => exact .inr rfl
  | some i =>
    obtain ⟨r, hr, hi⟩ := List.exists_of_findSome?_eq_some h
    obtain ⟨hw, rfl⟩ := MapRow.read?_eq_some_iff.mp hi
    exact .inl ⟨r, hr, hw, rfl⟩

theorem decode_of_matches {r : MapRow} (hr : r ∈ opcodeMaps) {w : InstrWord} (hw : r.Matches w) :
    decode w = .ok (r.read w) := by
  rw [decode_eq_search, search_eq_of_matches opcodeMaps_exclusive hr hw, Option.elim_some]

theorem exists_row_of_decode {w : InstrWord} {i : Instr} (h : decode w = .ok i) :
    ∃ r ∈ opcodeMaps, r.Matches w ∧ r.read w = i := by
  rcases decode_cases w with ⟨r, hr, hw, hd⟩ | hd <;> cases hd.symm.trans h
  exact ⟨r, hr, hw, rfl⟩

theorem decode_eq_notInScope {w : InstrWord} (h : ∀ i, decode w ≠ .ok i) :
    decode w = .error (.notInScope w) := by
  rcases decode_cases w with ⟨r, -, -, hd⟩ | hd
  · exact absurd hd (h _)
  · exact hd

/-! ### The encoder and the rows -/

theorem encode_of_mem_rows2RI12 {e : BitVec 10 × (BitVec 5 → BitVec 5 → BitVec 12 → Instr)}
    (he : e ∈ rows2RI12) (rd rj : BitVec 5) (d : BitVec 12) :
    encode (e.2 rd rj d) = encode2RI12 e.1 rd rj d := by
  revert e
  simp [rows2RI12, encode]

theorem encode_of_mem_rows2RI14 {e : BitVec 8 × (BitVec 5 → BitVec 5 → BitVec 14 → Instr)}
    (he : e ∈ rows2RI14) (rd rj : BitVec 5) (d : BitVec 14) :
    encode (e.2 rd rj d) = encode2RI14 e.1 rd rj d := by
  revert e
  simp [rows2RI14, encode]

theorem encode_of_mem_rows3R {e : BitVec 17 × (BitVec 5 → BitVec 5 → BitVec 5 → Instr)}
    (he : e ∈ rows3R) (rd rj rk : BitVec 5) :
    encode (e.2 rd rj rk) = encode3R e.1 rd rj rk := by
  revert e
  simp [rows3R, encode]

/-- A word is the encoding of what a row it matches reads from it. -/
theorem encode_read {r : MapRow} (hr : r ∈ opcodeMaps) {w : InstrWord} (hw : r.Matches w) :
    encode (r.read w) = w := by
  rcases mem_opcodeMaps.mp hr with ⟨e, he, rfl⟩ | ⟨e, he, rfl⟩ | ⟨e, he, rfl⟩
  · exact (encode_of_mem_rows2RI14 he _ _ _).trans (row2RI14_matches_iff.mp hw ▸ encode2RI14_fields w)
  · exact (encode_of_mem_rows2RI12 he _ _ _).trans (row2RI12_matches_iff.mp hw ▸ encode2RI12_fields w)
  · exact (encode_of_mem_rows3R he _ _ _).trans (row3R_matches_iff.mp hw ▸ encode3R_fields w)

/-- A row of the table is the row that R77 to R79 give to each instruction it reads. -/
theorem opcodeRow_read {r : MapRow} (hr : r ∈ opcodeMaps) (w : InstrWord) :
    opcodeRow (r.read w) = (r.mask, r.pattern) := by
  revert r
  simp [opcodeMaps, rows2RI12, rows2RI14, rows3R, row2RI12, row2RI14, row3R, opcodeRow]

theorem decode_encode2RI12 {op : BitVec 10} {mk : BitVec 5 → BitVec 5 → BitVec 12 → Instr}
    (h : rows2RI12.lookup op = some mk) (rd rj : BitVec 5) (d : BitVec 12) :
    decode (encode2RI12 op rd rj d) = .ok (mk rd rj d) := by
  obtain ⟨hrd, hrj, hd, hop, -⟩ := fields_encode2RI12 op rd rj d
  rw [decode_of_matches (row2RI12_mem (mem_of_lookup h)) (row2RI12_matches_iff.mpr hop)]
  simp only [row2RI12, hrd, hrj, hd]

theorem decode_encode2RI14 {op : BitVec 8} {mk : BitVec 5 → BitVec 5 → BitVec 14 → Instr}
    (h : rows2RI14.lookup op = some mk) (rd rj : BitVec 5) (d : BitVec 14) :
    decode (encode2RI14 op rd rj d) = .ok (mk rd rj d) := by
  obtain ⟨hrd, hrj, hd, hop⟩ := fields_encode2RI14 op rd rj d
  rw [decode_of_matches (row2RI14_mem (mem_of_lookup h)) (row2RI14_matches_iff.mpr hop)]
  simp only [row2RI14, hrd, hrj, hd]

theorem decode_encode3R {op : BitVec 17} {mk : BitVec 5 → BitVec 5 → BitVec 5 → Instr}
    (h : rows3R.lookup op = some mk) (rd rj rk : BitVec 5) :
    decode (encode3R op rd rj rk) = .ok (mk rd rj rk) := by
  obtain ⟨hrd, hrj, hrk, hop, -⟩ := fields_encode3R op rd rj rk
  rw [decode_of_matches (row3R_mem (mem_of_lookup h)) (row3R_matches_iff.mpr hop)]
  simp only [row3R, hrd, hrj, hrk]

/-- Every instruction stands in the map of its format, under the opcode that `encode` gives it. -/
theorem decode_encode (i : Instr) : decode (encode i) = .ok i := by
  cases i with
  | ldB | ldH | ldW | ldD | ldBu | ldHu | ldWu | stB | stH | stW | stD | preld =>
    exact decode_encode2RI12 rfl _ _ _
  | ldptrW | ldptrD | stptrW | stptrD => exact decode_encode2RI14 rfl _ _ _
  | ldxB | ldxH | ldxW | ldxD | ldxBu | ldxHu | ldxWu | stxB | stxH | stxW | stxD | preldx =>
    exact decode_encode3R rfl _ _ _

/-! ### The obligations on words -/

/-- Settles O1: the encoding of an instruction matches the row that reads the instruction back from it. -/
theorem decodeEncodeRoundTrip : Obligations.DecodeEncodeRoundTrip := fun i _ => decode_encode i

/-- Settles O2: the row that decodes a word reads all bits its mask does not keep. -/
theorem encodeDecodeRoundTrip : Obligations.EncodeDecodeRoundTrip := by
  intro w i h
  obtain ⟨r, hr, hw, rfl⟩ := exists_row_of_decode h
  exact encode_read hr hw

theorem matches_opcodeRow_of_decode {w : InstrWord} {i : Instr} (h : decode w = .ok i) :
    w &&& (opcodeRow i).1 = (opcodeRow i).2 := by
  obtain ⟨r, hr, hw, rfl⟩ := exists_row_of_decode h
  rw [opcodeRow_read hr]
  exact hw

/-- A word that matches an instruction's row decodes to an instruction of that row. -/
theorem exists_decode_of_matches_opcodeRow {w : InstrWord} {i : Instr}
    (h : w &&& (opcodeRow i).1 = (opcodeRow i).2) : ∃ j, decode w = .ok j ∧ opcodeRow j = opcodeRow i := by
  obtain ⟨r, hr, -, hi⟩ := exists_row_of_decode (decode_encode i)
  have hrow : opcodeRow i = (r.mask, r.pattern) := hi ▸ opcodeRow_read hr (encode i)
  rw [hrow] at h ⊢
  exact ⟨r.read w, decode_of_matches hr h, opcodeRow_read hr w⟩

/-- Settles O3: the decoder searches the table of the opcode maps, whose rows exclude each other. -/
theorem decodeFollowsTheOpcodeMaps : Obligations.DecodeFollowsTheOpcodeMaps := by
  refine ⟨fun w i => matches_opcodeRow_of_decode,
    fun w h => decode_eq_notInScope fun i hi => h i (matches_opcodeRow_of_decode hi),
    fun w i h => ?_, fun w i j hi hj => ?_, fun i => ⟨encode i, decode_encode i⟩⟩
  · obtain ⟨j, hj, hrow⟩ := exists_decode_of_matches_opcodeRow h
    exact ⟨j, hj, hrow, encodeDecodeRoundTrip w j hj⟩
  · obtain ⟨i', hi', hrow⟩ := exists_decode_of_matches_opcodeRow hi
    obtain ⟨j', hj', hrow'⟩ := exists_decode_of_matches_opcodeRow hj
    cases hi'.symm.trans hj'
    exact hrow.symm.trans hrow'

/-- Settles O4, by evaluation. -/
theorem exampleWordsDecode : Obligations.ExampleWordsDecode := by
  unfold Obligations.ExampleWordsDecode
  decide

/-- Settles O5, by evaluation. -/
theorem nearMissWordsAreNotInScope : Obligations.NearMissWordsAreNotInScope := by
  unfold Obligations.NearMissWordsAreNotInScope
  decide

/-! ### Bytes -/

theorem decodeBytes_of_short {bs : List Byte} (h : bs.length < 4) :
    decodeBytes bs = .error (.tooShort bs.length) := by
  match bs, h with
  | [], _ | [_], _ | [_, _], _ | [_, _, _], _ => rfl
  | _ :: _ :: _ :: _ :: _, h => simp only [List.length_cons] at h; omega

/-- Settles O6: the four bytes of a word make it again, and a shorter list has no fourth byte. -/
theorem bytesDecodeLittleEndian : Obligations.BytesDecodeLittleEndian := by
  refine ⟨fun w i rest h => ?_, fun bs => decodeBytes_of_short⟩
  rw [decodeBytes, wordOfBytes_bytesOfWord, h]
  rfl

end Sys2Proof
end

section
/-! PROOFS. The family of 30_encoding.md, the fetch (R70): its cases in order, and what an admitted state (R192)
cannot meet. -/

namespace Sys2Proof.Machine

/-! ### The cases of the fetch and of the step -/

theorem fetch_at_endPc {s : State} (hw : textWraps s.params = false) (h : s.pc = s.params.endPc) :
    fetch s = .refused .ended := by
  simp [fetch, hw, h]

theorem fetch_of_misaligned {s : State} (hw : textWraps s.params = false) (hend : s.pc ≠ s.params.endPc)
    (h : s.pc.toNat % 4 ≠ 0) : fetch s = .fault (.fetchMisaligned s.pc) := by
  simp [fetch, hw, hend, h]

theorem fetch_outside_text {s : State} (hw : textWraps s.params = false) (hend : s.pc ≠ s.params.endPc)
    (hal : s.pc.toNat % 4 = 0) (h : ∀ c ∈ s.params.text, c.1 ≠ s.pc) :
    fetch s = .fault (.fetchOutsideText s.pc) := by
  have hl : s.params.text.lookup s.pc = none :=
    List.lookup_eq_none_iff.mpr fun c hc => bne_iff_ne.mpr (h c hc).symm
  simp [fetch, hw, hend, hal, hl]

theorem step_of_fetch_fault {s : State} {f : Fault} (h : fetch s = .fault f) : step s = .fault f := by
  rw [step, h, andThen_fault]

theorem step_of_fetch_refused {s : State} {r : Refusal} (h : fetch s = .refused r) :
    step s = .refused r := by
  rw [step, h, andThen_refused]

theorem step_of_not_in_scope {s : State} {w : InstrWord} (hf : fetch s = .next w)
    (hd : ∀ i, decode w ≠ .ok i) : step s = .refused (.notInScope s.pc w) := by
  simp only [step, hf, andThen_next, decode_eq_notInScope hd]

/-- Settles O47, case by case of the fetch. -/
theorem fetchCases : Obligations.FetchCases := fun _ hw =>
  ⟨fun h => step_of_fetch_refused (fetch_at_endPc hw h), fun hend =>
    ⟨fun h => step_of_fetch_fault (fetch_of_misaligned hw hend h), fun hal =>
      ⟨fun h => step_of_fetch_fault (fetch_outside_text hw hend hal h), fun _ hl =>
        have hf := fetch_of_lookup hw hend hal hl
        ⟨step_of_not_in_scope hf, fun _ hd => step_of_fetch hf hd⟩⟩⟩⟩

/-! ### How an instruction can stop (R170) -/

theorem access_fault_cases {s : State} {v : Word} {n : AccessSize} {k : AccessKind} {f : Fault}
    (h : access s v n k = .fault f) :
    f = .addressError v k s.pc ∨ f = .unaligned v k s.pc ∨ ∃ c, f = .translationFault c v k s.pc := by
  rcases access_cases s v n k with
    ⟨-, ha⟩ | ⟨-, ⟨-, -, ha⟩ | ⟨-, ⟨c, j, -, -, -, ha⟩ | ⟨-, p, -, ⟨-, ha⟩ | ⟨-, ha⟩⟩⟩⟩ <;>
    cases ha.symm.trans h
  · exact .inl rfl
  · exact .inr (.inl rfl)
  · exact .inr (.inr ⟨c, rfl⟩)

/-- An instruction faults as its access does, or is stuck. -/
theorem exec_fault_cases {i : Instr} {s : State} {f : Fault} (h : exec i s = .fault f) :
    (∃ a, memAccess? i s = some a ∧ access s a.vaddr a.size a.kind = .fault f) ∨ f = .stuck s.pc := by
  obtain ⟨a, ha, ⟨g, hacc, he⟩ | ⟨r, -, he⟩ | ⟨p, hacc⟩⟩ :=
    access_of_not_completed fun t ht => nomatch ht.symm.trans h
  · cases he.symm.trans h
    exact .inl ⟨a, ha, hacc⟩
  · cases he.symm.trans h
  · rcases exec_cases_of_access_next ha hacc with ⟨-, he⟩ | ⟨-, ⟨-, he⟩ | ⟨-, t, he⟩⟩ <;>
      cases he.symm.trans h
    exact .inr rfl

theorem exec_refused_cases {i : Instr} {s : State} {r : Refusal} (h : exec i s = .refused r) :
    r = .nonContiguousAccess ∨ r = .storeToText := by
  obtain ⟨a, ha, ⟨g, -, he⟩ | ⟨q, hacc, he⟩ | ⟨p, hacc⟩⟩ :=
    access_of_not_completed fun t ht => nomatch ht.symm.trans h
  · cases he.symm.trans h
  · cases he.symm.trans h
    exact .inl (access_eq_refused_iff.mp hacc).1
  · rcases exec_cases_of_access_next ha hacc with ⟨-, he⟩ | ⟨-, ⟨-, he⟩ | ⟨-, t, he⟩⟩ <;>
      cases he.symm.trans h
    exact .inr rfl

/-- The faults that only a fetch raises (R70). -/
def Fault.IsOfFetch (f : Fault) : Prop := ∃ pc, f = .fetchMisaligned pc ∨ f = .fetchOutsideText pc

theorem exec_fault_not_of_fetch {i : Instr} {s : State} {f : Fault} (h : exec i s = .fault f) :
    ¬ f.IsOfFetch := by
  rintro ⟨pc, hf⟩
  rcases exec_fault_cases h with ⟨a, -, hacc⟩ | rfl
  · rcases access_fault_cases hacc with rfl | rfl | ⟨c, rfl⟩ <;> simp at hf
  · simp at hf

/-! ### The fetch in an admitted state -/

/-- In an admitted state the run is over, or the text has a word at the pc. -/
theorem fetch_cases_of_admitted {s : State} (h : admitted s = true) :
    fetch s = .refused .ended ∨ ∃ w, fetch s = .next w := by
  have hw : textWraps s.params = false :=
    textWraps_eq_false.mpr fun _ => key_ne_topSlot_of_admitted h
  obtain ⟨base, hlt, hbase, hkeys, hend, i, hi, hslot, hpc⟩ := admitted_numbers h
  by_cases he : s.pc = s.params.endPc
  · exact .inl (fetch_at_endPc hw he)
  · have hil : i < s.params.text.length := by
      refine lt_of_le_of_ne hi fun hk => he (BitVec.eq_of_toNat_eq ?_)
      rw [hpc, hend, hk]
    obtain ⟨w, hl⟩ := lookup_slot hkeys hlt hil
    exact .inr ⟨w, fetch_of_lookup hw he (by omega) (hslot ▸ hl)⟩

theorem step_cases_of_admitted {s : State} (h : admitted s = true) :
    step s = .refused .ended ∨ (∃ w, step s = .refused (.notInScope s.pc w)) ∨ ∃ i, step s = exec i s := by
  rcases fetch_cases_of_admitted h with hf | ⟨w, hf⟩
  · exact .inl (step_of_fetch_refused hf)
  · by_cases hd : ∃ i, decode w = .ok i
    · obtain ⟨i, hd⟩ := hd
      exact .inr (.inr ⟨i, step_of_fetch hf hd⟩)
    · exact .inr (.inl ⟨w, step_of_not_in_scope hf (not_exists.mp hd)⟩)

/-- A step of an admitted state that faults was stopped by its instruction. -/
theorem step_fault_not_of_fetch {s : State} (h : admitted s = true) {f : Fault} (hf : step s = .fault f) :
    ¬ f.IsOfFetch := by
  rcases step_cases_of_admitted h with hs | ⟨w, hs⟩ | ⟨i, hs⟩
  · cases hs.symm.trans hf
  · cases hs.symm.trans hf
  · exact exec_fault_not_of_fetch (hs.symm.trans hf)

theorem step_ne_wrapAtTop {s : State} (h : admitted s = true) : step s ≠ .refused .wrapAtTop := by
  intro hr
  rcases step_cases_of_admitted h with hs | ⟨w, hs⟩ | ⟨i, hs⟩
  · cases hs.symm.trans hr
  · cases hs.symm.trans hr
  · rcases exec_refused_cases (hs.symm.trans hr) with hq | hq <;> cases hq

/-- Settles O54: the fetch of an admitted state answers a word or the end, and no instruction stops as a fetch
does. -/
theorem admittedStepsNeverFaultAtFetch : Obligations.AdmittedStepsNeverFaultAtFetch := fun _ h =>
  ⟨fun pc => ⟨fun hf => step_fault_not_of_fetch h hf ⟨pc, .inl rfl⟩,
    fun hf => step_fault_not_of_fetch h hf ⟨pc, .inr rfl⟩⟩, step_ne_wrapAtTop h⟩

end Sys2Proof.Machine
end

section
/-! PROOFS. The family of 40_ld_st.md: the byte stores (R107), with their indexed form (R127). -/

namespace Sys2Proof.Machine

/-- Settles O33: in either addressing mode the meaning is the shared store, which completes with the low byte. -/
theorem byteStoresComplete : Obligations.ByteStoresComplete := by
  intro s rd v p b hw hreach hb ht
  have hdone : StoreDone s p AccessSize.byte.bytes (s.gr rd) (store .byte rd v s) :=
    storeDone_of_reaches hw hreach hb ht rd
  exact ⟨by rintro rj d rfl; exact hdone, by rintro rj rk rfl; exact hdone⟩

end Sys2Proof.Machine
end

section
/-! PROOFS. The family of 41_ldx_stx.md: the three addressing modes decide the address and nothing else (R131,
R140 to R143). -/

namespace Sys2Proof.Machine

/-- Base and index of the indexed mode may be swapped (R131). -/
theorem vaddrX_comm (s : State) (rj rk : RegNum) : vaddrX s rj rk = vaddrX s rk rj :=
  BitVec.add_comm (s.gr rj) (s.gr rk)

/-- Two instructions that run the shared load alike but for the address agree where the addresses do. -/
theorem exec_eq_of_load_at {i j : Instr} {s : State} {n : AccessSize} {extend : BitVec (8 * n.bytes) → Word}
    {rd : RegNum} {v w : Word} (hi : exec i s = load n extend rd v s) (hj : exec j s = load n extend rd w s)
    (h : v = w) : exec i s = exec j s := by
  rw [hi, hj, h]

/-- Two instructions that run the shared store alike but for the address agree where the addresses do. -/
theorem exec_eq_of_store_at {i j : Instr} {s : State} {n : AccessSize} {rd : RegNum} {v w : Word}
    (hi : exec i s = store n rd v s) (hj : exec j s = store n rd w s) (h : v = w) : exec i s = exec j s := by
  rw [hi, hj, h]

/-- Settles O45: in every mode a mnemonic's meaning is the shared load or store of one size, extension and
register, so only the address is left to compare. -/
theorem addressingModesAgree : Obligations.AddressingModesAgree := by
  intro s rd rj d
  refine ⟨fun q e h => ⟨?ldptrW, ?ldptrD, ?stptrW, ?stptrD⟩, fun q k => ⟨vaddrX_comm s q k, fun h =>
    ⟨?ldxB, ?ldxH, ?ldxW, ?ldxD, ?ldxBu, ?ldxHu, ?ldxWu, ?stxB, ?stxH, ?stxW, ?stxD⟩⟩⟩
  case ldptrW | ldptrD | ldxB | ldxH | ldxW | ldxD | ldxBu | ldxHu | ldxWu =>
    exact exec_eq_of_load_at rfl rfl h
  case stptrW | stptrD | stxB | stxH | stxW | stxD => exact exec_eq_of_store_at rfl rfl h

end Sys2Proof.Machine
end

section
/-! PROOFS. The family of 43_preld.md: an instruction that makes no access changes the pc and nothing else (R151). -/

namespace Sys2Proof.Machine

/-- What makes no access completes in every state, and the pc is all that it moves. -/
theorem onlyAdvances_of_no_access {i : Instr} {s : State} (h : memAccess? i s = none) :
    ∃ t, exec i s = .next t ∧ t.pc = s.pc + 4 ∧ t.x = s.x ∧ t.mem = s.mem ∧ t.params = s.params :=
  ⟨s.advance, exec_of_no_access h, advance_pc s, advance_x s, advance_mem s, advance_params s⟩

/-- Settles O37: PRELD computes an address and makes no access (R40), whatever its hint, base and displacement. -/
theorem preldOnlyAdvances : Obligations.PreldOnlyAdvances := by
  intro s hint rj d
  have hnone : memAccess? (.preld hint rj d) s = none := rfl
  exact onlyAdvances_of_no_access hnone

end Sys2Proof.Machine
end

section
/-! PROOFS. The family of 44_preldx.md: the fields of the parameter word as numbers (R161), and that the prefetch
they describe changes the pc and nothing else (R163). -/

namespace Sys2Proof.Machine

/-- A field of `n` bits from bit `k` on is a quotient and a remainder of the number that holds it. -/
theorem toNat_extractLsb'_eq_div_mod {m : Nat} (w : BitVec m) (k n : Nat) :
    (w.extractLsb' k n).toNat = w.toNat / 2 ^ k % 2 ^ n := by
  rw [BitVec.extractLsb'_toNat, Nat.shiftRight_eq_div_pow]

/-- A bit is set where the quotient at its place is odd. -/
theorem getLsbD_iff_div_mod {m : Nat} (w : BitVec m) (k : Nat) :
    w.getLsbD k = true ↔ w.toNat / 2 ^ k % 2 = 1 := by
  rw [← BitVec.testBit_toNat, Nat.testBit_eq_decide_div_mod_eq, decide_eq_true_iff]

/-- Settles O11, field by field; the offset is the field from bit 0 on, where the divisor is 1. -/
theorem preldxFieldsOfTheParameterWord : Obligations.PreldxFieldsOfTheParameterWord := by
  intro w
  have hoffset : (preldxFields w).offset.toNat = w.toNat % 2 ^ 16 :=
    calc (preldxFields w).offset.toNat
      _ = w.toNat / 2 ^ 0 % 2 ^ 16 := toNat_extractLsb'_eq_div_mod w 0 16
      _ = w.toNat % 2 ^ 16 := by rw [Nat.pow_zero, Nat.div_one]
  exact ⟨hoffset, getLsbD_iff_div_mod w 16, toNat_extractLsb'_eq_div_mod w 20 6,
    toNat_extractLsb'_eq_div_mod w 32 8, toNat_extractLsb'_eq_div_mod w 44 16⟩

/-- Settles O38: PRELDX makes no access (R40), so neither its hint nor the words in its registers matter. -/
theorem preldxOnlyAdvances : Obligations.PreldxOnlyAdvances := by
  intro s hint rj rk
  have hnone : memAccess? (.preldx hint rj rk) s = none := rfl
  exact onlyAdvances_of_no_access hnone

end Sys2Proof.Machine
end

section
/-! PROOFS. The family of 60_exceptions.md: which exception an instruction raises (R172 to R174), that it stops for no
other reason (R175), and where a run ends (R170). -/

namespace Sys2Proof.Machine

/-! ### Which fault an access meets -/

/-- The first fault is that of the lowest byte whose translation faults (R46 step 3), and there is one such byte. -/
theorem firstFault_eq_some_iff {ps : Params} {k : AccessKind} {c : Cause} {v : Word} {n : Nat} :
    firstFault ps k (byteAddrs v n) = some c ↔
      ∃ j, j < n ∧ translateAddr ps.xlat (v + BitVec.ofNat 64 j) k = .fault c ∧
        ∀ j', j' < j → ∃ p, translateAddr ps.xlat (v + BitVec.ofNat 64 j') k = .ok p := by
  refine ⟨firstFault_eq_some, fun ⟨j, hj, hc, hbelow⟩ => ?_⟩
  cases hf : firstFault ps k (byteAddrs v n) with
  | none =>
    obtain ⟨p, hp⟩ := firstFault_eq_none.mp hf _ (mem_byteAddrs.mpr ⟨j, hj, rfl⟩)
    cases hp.symm.trans hc
  | some d =>
    obtain ⟨i, -, hd, hbelow'⟩ := firstFault_eq_some hf
    rcases lt_trichotomy i j with hij | rfl | hji
    · obtain ⟨p, hp⟩ := hbelow i hij
      cases hp.symm.trans hd
    · cases hd.symm.trans hc
      rfl
    · obtain ⟨p, hp⟩ := hbelow' j hji
      cases hp.symm.trans hc

/-- The three faults of `Access` in the order of R46: each is met where the checks before it pass. -/
theorem access_eq_fault_iff {s : State} {v : Word} {n : AccessSize} {k : AccessKind} {f : Fault} :
    access s v n k = .fault f ↔
      addrLegal s.params.illegal v n k = false ∧ f = .addressError v k s.pc ∨
      addrLegal s.params.illegal v n k = true ∧
        (¬ AlignedOrAllowed s v n ∧ f = .unaligned v k s.pc ∨
          AlignedOrAllowed s v n ∧ ∃ c, firstFault s.params k (byteAddrs v n.bytes) = some c ∧
            f = .translationFault c v k s.pc) := by
  rcases access_cases s v n k with
    ⟨hl, ha⟩ | ⟨hl, ⟨h0, hn, ha⟩ | ⟨hal, ⟨c, j, hj, hc, hbelow, ha⟩ | ⟨hall, p, -, hend⟩⟩⟩
  · simp [ha, hl, @eq_comm _ f]
  · have hnot : ¬ AlignedOrAllowed s v n := not_or.mpr ⟨h0, hn⟩
    simp [ha, hl, hnot, @eq_comm _ f]
  · have hfirst := firstFault_eq_some_iff.mpr ⟨j, hj, hc, hbelow⟩
    simp [ha, hl, hal, hfirst, @eq_comm _ f]
  · have hnone : firstFault s.params k (byteAddrs v n.bytes) = none :=
      firstFault_eq_none.mpr fun a h => by
        obtain ⟨i, hi, rfl⟩ := mem_byteAddrs.mp h
        exact hall i hi
    rcases hend with ⟨-, ha⟩ | ⟨-, ha⟩ <;> simp [ha, hl, hal, hnone]

theorem access_eq_addressError_iff {s : State} {v w : Word} {n : AccessSize} {k l : AccessKind} {pc : Word} :
    access s v n k = .fault (.addressError w l pc) ↔
      addrLegal s.params.illegal v n k = false ∧ w = v ∧ l = k ∧ pc = s.pc := by
  simp [access_eq_fault_iff]

theorem access_eq_unaligned_iff {s : State} {v w : Word} {n : AccessSize} {k l : AccessKind} {pc : Word} :
    access s v n k = .fault (.unaligned w l pc) ↔
      addrLegal s.params.illegal v n k = true ∧ ¬ AlignedOrAllowed s v n ∧ w = v ∧ l = k ∧ pc = s.pc := by
  simp [access_eq_fault_iff]

theorem access_eq_translationFault_iff {s : State} {v w : Word} {n : AccessSize} {k l : AccessKind}
    {c : Cause} {pc : Word} :
    access s v n k = .fault (.translationFault c w l pc) ↔
      addrLegal s.params.illegal v n k = true ∧ AlignedOrAllowed s v n ∧
        firstFault s.params k (byteAddrs v n.bytes) = some c ∧ w = v ∧ l = k ∧ pc = s.pc := by
  simp [access_eq_fault_iff]

/-! ### Which fault an instruction raises -/

/-- An instruction raises an exception exactly as its access does: what comes after the access raises none. -/
theorem exec_eq_fault_iff {i : Instr} {s : State} {f : Fault} (hf : f ≠ .stuck s.pc) :
    exec i s = .fault f ↔ ∃ a, memAccess? i s = some a ∧ access s a.vaddr a.size a.kind = .fault f :=
  ⟨fun h => (exec_fault_cases h).resolve_right hf, fun ⟨_, ha, h⟩ => exec_of_access_fault ha h⟩

/-- Settles O22: the check of `AddrLegal` is the first of the access. -/
theorem addressErrorExactlyWhen : Obligations.AddressErrorExactlyWhen := by
  intro i s v k pc
  rw [exec_eq_fault_iff (by simp)]
  simp only [access_eq_addressError_iff]

/-- Every byte address is naturally aligned (R47). -/
theorem alignedOrAllowed_byte (s : State) (v : Word) : AlignedOrAllowed s v .byte :=
  .inl (Nat.mod_one v.toNat)

theorem exec_eq_unaligned_iff {i : Instr} {s : State} {v : Word} {k : AccessKind} {pc : Word} :
    exec i s = .fault (.unaligned v k pc) ↔
      ∃ a, memAccess? i s = some a ∧ addrLegal s.params.illegal a.vaddr a.size a.kind = true ∧
        ¬ AlignedOrAllowed s a.vaddr a.size ∧ v = a.vaddr ∧ k = a.kind ∧ pc = s.pc := by
  rw [exec_eq_fault_iff (by simp)]
  simp only [access_eq_unaligned_iff]

/-- Settles O23: the alignment test is the second of the access, and a byte always passes it. -/
theorem unalignedExactlyWhen : Obligations.UnalignedExactlyWhen := by
  refine ⟨fun i s v k pc => ?_, fun i s hbyte v k pc h => ?_⟩
  · simp only [exec_eq_unaligned_iff, AlignedOrAllowed, not_or, and_assoc, ne_eq]
  · obtain ⟨a, ha, -, hnot, -⟩ := exec_eq_unaligned_iff.mp h
    exact hnot (hbyte a ha ▸ alignedOrAllowed_byte s a.vaddr)

theorem exec_eq_translationFault_iff {i : Instr} {s : State} {c : Cause} {v : Word} {k : AccessKind} {pc : Word} :
    exec i s = .fault (.translationFault c v k pc) ↔
      ∃ a, memAccess? i s = some a ∧ addrLegal s.params.illegal a.vaddr a.size a.kind = true ∧
        AlignedOrAllowed s a.vaddr a.size ∧
        firstFault s.params a.kind (byteAddrs a.vaddr a.size.bytes) = some c ∧
        v = a.vaddr ∧ k = a.kind ∧ pc = s.pc := by
  rw [exec_eq_fault_iff (by simp)]
  simp only [access_eq_translationFault_iff]

/-- The identity translation faults nowhere (R45). -/
theorem firstFault_of_identity {ps : Params} (h : ps.xlat = []) (k : AccessKind) (l : List Word) :
    firstFault ps k l = none :=
  firstFault_eq_none.mpr fun a _ => ⟨a.toNat, by rw [h, translateAddr_nil]⟩

/-- Settles O24: the translation is the third check of the access, and finds the fault of the lowest byte. -/
theorem translationFaultExactlyWhen : Obligations.TranslationFaultExactlyWhen := by
  refine ⟨fun i s c v k pc => ?_, fun i s hid c v k pc h => ?_⟩
  · simp only [exec_eq_translationFault_iff, firstFault_eq_some_iff]
  · obtain ⟨a, -, -, -, hfirst, -⟩ := exec_eq_translationFault_iff.mp h
    cases (firstFault_of_identity hid _ _).symm.trans hfirst

/-- Settles O28: an instruction stops as its access does, for one of four reasons, or after it for one of two. -/
theorem noOtherStops : Obligations.NoOtherStops := by
  refine fun i s => ⟨fun f h => ?_, fun r h => exec_refused_cases h⟩
  rcases exec_fault_cases h with ⟨a, -, hacc⟩ | hstuck
  · rcases access_fault_cases hacc with he | hu | ⟨c, ht⟩
    · exact .inl ⟨_, _, he⟩
    · exact .inr (.inl ⟨_, _, hu⟩)
    · exact .inr (.inr (.inl ⟨c, _, _, ht⟩))
  · exact .inr (.inr (.inr hstuck))

/-! ### Where a run ends -/

/-- Of the five outcomes of R170, `Ended` is the refusal `ended` alone (log 10). -/
theorem stepOutcome_eq_ended_iff {o : Answer State} : stepOutcome o = .ended ↔ o = .refused .ended := by
  cases o with
  | next t => simp [stepOutcome]
  | fault f => cases f <;> simp [stepOutcome]
  | refused r => cases r <;> simp [stepOutcome]

theorem fetch_of_wraps {s : State} (h : textWraps s.params = true) : fetch s = .refused .wrapAtTop := by
  simp [fetch, h]

theorem fetch_ne_ended {s : State} (hend : s.pc ≠ s.params.endPc) : fetch s ≠ .refused .ended := by
  unfold fetch
  split_ifs
  · simp
  · simp
  · split <;> simp

/-- The fetch tests the wrap of the text first and the end of the run next (R24, R193; log 13). -/
theorem fetch_eq_ended_iff {s : State} :
    fetch s = .refused .ended ↔ textWraps s.params = false ∧ s.pc = s.params.endPc := by
  refine ⟨fun h => ⟨?_, ?_⟩, fun ⟨hw, hend⟩ => fetch_at_endPc hw hend⟩
  · cases hw : textWraps s.params with
    | false => rfl
    | true => cases (fetch_of_wraps hw).symm.trans h
  · exact not_not.mp fun hend => fetch_ne_ended hend h

/-- Only the fetch ends a run: no instruction does, and a word that is none is refused under another name. -/
theorem step_eq_ended_iff {s : State} : step s = .refused .ended ↔ fetch s = .refused .ended := by
  refine ⟨fun h => ?_, step_of_fetch_refused⟩
  cases hf : fetch s with
  | fault f => cases (step_of_fetch_fault hf).symm.trans h
  | refused r =>
    cases (step_of_fetch_refused hf).symm.trans h
    rfl
  | next w =>
    by_cases hd : ∃ i, decode w = .ok i
    · obtain ⟨i, hd⟩ := hd
      have hexec : exec i s = .refused .ended := (step_of_fetch hf hd).symm.trans h
      rcases exec_refused_cases hexec with hr | hr <;> cases hr
    · cases (step_of_not_in_scope hf (not_exists.mp hd)).symm.trans h

/-- Settles O50: of a step the fetch alone ends a run, at `end_pc` and of a text that does not wrap. -/
theorem endedExactlyAtEndPc : Obligations.EndedExactlyAtEndPc := fun s =>
  calc stepOutcome (step s) = .ended
    _ ↔ step s = .refused .ended := stepOutcome_eq_ended_iff
    _ ↔ fetch s = .refused .ended := step_eq_ended_iff
    _ ↔ textWraps s.params = false ∧ s.pc = s.params.endPc := fetch_eq_ended_iff

end Sys2Proof.Machine
end

section
/-! PROOFS. The family of 70_reset_and_hazards.md: what the pc decides (R192), which records the launch accepts
(R192), and the straight line of a run (R193). -/

namespace Sys2Proof.Machine

/-! ### The instructions at another pc -/

/-- The answer `o'` is the answer `o` of an instruction placed at the pc `p` instead: a completion differs in the
next pc alone, and a refusal is the same. -/
def SameAtPc (p : Word) (o o' : Answer State) : Prop :=
  (∀ t, o = .next t → o' = .next { t with pc := p + 4 }) ∧ ∀ r, o = .refused r → o' = .refused r

/-- Where `Access` answers, it does so by the parameters alone. -/
theorem access_next_at_pc {s : State} {v : Word} {n : AccessSize} {k : AccessKind} {q : Nat}
    (h : access s v n k = .next q) (p : Word) : access { s with pc := p } v n k = .next q :=
  access_eq_next_iff.mpr (access_eq_next (s := s) h)

theorem access_refused_at_pc {s : State} {v : Word} {n : AccessSize} {k : AccessKind} {r : Refusal}
    (h : access s v n k = .refused r) (p : Word) : access { s with pc := p } v n k = .refused r :=
  access_eq_refused_iff.mpr (access_eq_refused_iff (s := s) |>.mp h)

theorem advance_setGr_at_pc (s : State) (p : Word) (rd : RegNum) (v : Word) :
    (State.setGr { s with pc := p } rd v).advance = { (s.setGr rd v).advance with pc := p + 4 } := by
  unfold State.setGr
  split <;> rfl

theorem load_at_pc (n : AccessSize) (extend : BitVec (8 * n.bytes) → Word) (rd : RegNum) (v : Word)
    (s : State) (p : Word) :
    SameAtPc p (load n extend rd v s) (load n extend rd v { s with pc := p }) := by
  refine ⟨fun t h => ?_, fun r h => ?_⟩
  · obtain ⟨q, b, hacc, hb, rfl⟩ := load_eq_next h
    rw [load_of_access (access_next_at_pc hacc p) hb, advance_setGr_at_pc]
  · rcases load_cases n extend rd v s with
      ⟨f, -, hl⟩ | ⟨r', hacc, hl⟩ | ⟨q, -, ⟨-, hl⟩ | ⟨b, -, hl⟩⟩ <;> cases hl.symm.trans h
    rw [load, access_refused_at_pc hacc p, andThen_refused]

theorem store_at_pc (n : AccessSize) (rd : RegNum) (v : Word) (s : State) (p : Word) :
    SameAtPc p (store n rd v s) (store n rd v { s with pc := p }) := by
  refine ⟨fun t h => ?_, fun r h => ?_⟩
  · obtain ⟨q, m, hacc, ht, hm, rfl⟩ := store_eq_next h
    exact store_of_access (access_next_at_pc hacc p) ht hm
  · rcases store_cases n rd v s with
      ⟨f, -, hl⟩ | ⟨r', hacc, hl⟩ | ⟨q, hacc, ⟨ht, hl⟩ | ⟨-, ⟨-, hl⟩ | ⟨m, -, hl⟩⟩⟩ <;>
      cases hl.symm.trans h
    · rw [store, access_refused_at_pc hacc p, andThen_refused]
    · exact store_of_hitsText (access_next_at_pc hacc p) ht

/-- Settles O42: a prefetch only advances, and a load or store meets the same address at another pc. -/
theorem instructionsArePositionIndependent : Obligations.InstructionsArePositionIndependent := by
  intro i s p
  have hgr : ∀ r ∈ sourceRegs i, State.gr { s with pc := p } r = s.gr r := fun _ _ => rfl
  rcases exec_cases i with ⟨-, he⟩ | ⟨n, extend, rd, v, -, he, hv⟩ | ⟨n, rd, v, -, -, he, hv⟩
  · rw [(he _).2, (he _).2]
    exact ⟨fun t h => by cases h; rfl, nofun⟩
  · rw [(he _).2, (he _).2, hv _ _ hgr]
    exact load_at_pc n extend rd (v s) s p
  · rw [(he _).2, (he _).2, hv _ _ hgr]
    exact store_at_pc n rd (v s) s p

/-! ### The records that the launch accepts -/

theorem launch_eq_next_iff {s t : State} : launch s = .next t ↔ admitted s = true ∧ t = s := by
  rcases launch_cases s with ⟨ha, hl⟩ | ⟨ha, r, hl⟩ <;> rw [hl]
  · exact ⟨fun h => by cases h; exact ⟨ha, rfl⟩, fun ⟨_, ht⟩ => by rw [ht]⟩
  · exact ⟨nofun, fun ⟨ha', _⟩ => nomatch ha.symm.trans ha'⟩

theorem textAligned_iff {s : State} :
    textAligned s = true ↔
      (∀ c ∈ s.params.text, c.1.toNat % 4 = 0) ∧ s.pc.toNat % 4 = 0 ∧ s.params.endPc.toNat % 4 = 0 := by
  simp [textAligned, and_assoc]

/-- The text fills the slots from `base` to `end_pc`, in rising order, and the pc is one of them or the end: the
checks `NoWrapAtTop` and `TextContiguous` of R192, as numbers. -/
def SlotsFrom (s : State) (base : Nat) : Prop :=
  s.params.text.map (fun c => c.1.toNat) =
      (List.range s.params.text.length).map (fun i => base + 4 * i) ∧
    s.params.endPc.toNat = base + 4 * s.params.text.length ∧
    ∃ i, i ≤ s.params.text.length ∧ s.pc.toNat = base + 4 * i

/-- The base of the slots is the one that the launch takes. -/
theorem SlotsFrom.toNat_textBase {s : State} {base : Nat} (h : SlotsFrom s base) :
    (textBase s.params).toNat = base := by
  obtain ⟨hkeys, hend, -⟩ := h
  unfold textBase
  cases ht : s.params.text with
  | nil => simpa [ht] using hend
  | cons c rest =>
    rw [ht, List.length_cons, List.range_succ_eq_map] at hkeys
    simpa using (List.cons.inj hkeys).1

theorem eq_slot_iff {base a : Word} {i : Nat} (h : base.toNat + 4 * i < 2 ^ 64) :
    a = slot base i ↔ a.toNat = base.toNat + 4 * i := by
  rw [← BitVec.toNat_inj, toNat_slot h]

theorem textContiguous_iff {s : State} (hnw : noWrapAtTop s.params = true) :
    textContiguous s = true ↔ SlotsFrom s (textBase s.params).toNat := by
  have hlt : (textBase s.params).toNat + 4 * s.params.text.length < 2 ^ 64 := of_decide_eq_true hnw
  have hslot (i : Nat) : i < s.params.text.length + 1 ∧ s.pc = slot (textBase s.params) i ↔
      i ≤ s.params.text.length ∧ s.pc.toNat = (textBase s.params).toNat + 4 * i := by
    rw [Nat.lt_succ_iff]
    exact and_congr_right fun hi => eq_slot_iff (by omega)
  simp only [textContiguous, Bool.and_eq_true, beq_iff_eq, List.any_eq_true, List.mem_range,
    keysRiseFrom_iff hlt, eq_slot_iff hlt, hslot, SlotsFrom, and_assoc]

theorem SlotsFrom.noWrapAtTop {s : State} {base : Nat} (h : SlotsFrom s base) :
    noWrapAtTop s.params = true := by
  have hbase := h.toNat_textBase
  obtain ⟨-, hend, -⟩ := h
  have := s.params.endPc.isLt
  exact decide_eq_true (by omega)

/-- Two checks of the launch together say that the text fills slots from some base on. -/
theorem slots_iff {s : State} :
    noWrapAtTop s.params = true ∧ textContiguous s = true ↔ ∃ base, SlotsFrom s base := by
  refine ⟨fun ⟨hnw, hc⟩ => ⟨_, (textContiguous_iff hnw).mp hc⟩, fun ⟨base, h⟩ => ?_⟩
  refine ⟨h.noWrapAtTop, (textContiguous_iff h.noWrapAtTop).mpr ?_⟩
  rwa [h.toNat_textBase]

/-- Settles O51: the launch accepts the admitted records, and each check is read as numbers. -/
theorem launchAcceptsExactlyWellFormedRecords : Obligations.LaunchAcceptsExactlyWellFormedRecords := by
  refine fun s => ⟨fun t h => (launch_eq_next_iff.mp h).2, ?_⟩
  calc (∃ t, launch s = .next t)
    _ ↔ admitted s = true := by simp [launch_eq_next_iff]
    _ ↔ textAligned s = true ∧ (noWrapAtTop s.params = true ∧ textContiguous s = true) ∧
        translateBlockwise s.params.xlat = true ∧ s.mem.wf = true := by
      simp only [admitted, Bool.and_eq_true, and_assoc]
    _ ↔ _ := by
      rw [textAligned_iff, slots_iff, and_assoc, and_assoc]
      rfl

/-! ### The straight line of a run -/

/-- A run that goes on completed its first step. -/
theorem run_succ_eq_next {k : Nat} {s t : State} (h : core.run (k + 1) s = .next t) :
    ∃ s', step s = .next s' ∧ core.run k s' = .next t := by
  simp only [Host.Core.run] at h
  split at h
  · exact ⟨_, ‹_›, h⟩
  · cases h
  · cases h

/-- A completed step keeps the launch parameters and moves the pc by 4 without a wrap. -/
theorem step_frame {s t : State} (h : step s = .next t) :
    t.params = s.params ∧ t.pc.toNat = s.pc.toNat + 4 := by
  obtain ⟨w, i, hf, -, he⟩ := step_eq_next h
  obtain ⟨hpc, hps, -⟩ := exec_frame he
  exact ⟨hps, by rw [hpc, toNat_add_four (pc_below_top_of_fetch hf)]⟩

/-- What every run from an admitted state keeps, and where it stands. -/
theorem run_of_admitted {k : Nat} {s t : State} (ha : admitted s = true) (h : core.run k s = .next t) :
    admitted t = true ∧ t.params = s.params ∧ t.pc.toNat = s.pc.toNat + 4 * k := by
  induction k generalizing s with
  | zero =>
    cases h
    exact ⟨ha, rfl, rfl⟩
  | succ k ih =>
    obtain ⟨s', hstep, hrun⟩ := run_succ_eq_next h
    obtain ⟨hps', hpc'⟩ := step_frame hstep
    obtain ⟨hat, hps, hpc⟩ := ih (stepKeepsAdmitted s s' ha hstep) hrun
    exact ⟨hat, hps.trans hps', by omega⟩

/-- How many slots of the text stand between the pc and `end_pc` (R193). -/
def slotsLeft (s : State) : Nat := (s.params.endPc.toNat - s.pc.toNat) / 4

/-- In an admitted state the pc is a whole number of slots before the end, or at it. -/
theorem pc_add_slotsLeft {s : State} (h : admitted s = true) :
    s.pc.toNat + 4 * slotsLeft s = s.params.endPc.toNat := by
  obtain ⟨base, -, -, -, hend, i, hi, -, hpc⟩ := admitted_numbers h
  unfold slotsLeft
  omega

/-- Every step of a run takes one slot. -/
theorem slotsLeft_after_run {k : Nat} {s t : State} (ha : admitted s = true) (h : core.run k s = .next t) :
    slotsLeft t + k = slotsLeft s := by
  obtain ⟨hat, hps, hpc⟩ := run_of_admitted ha h
  have hs := pc_add_slotsLeft ha
  have ht := pc_add_slotsLeft hat
  rw [hps] at ht
  omega

/-- From an admitted state a step ends the run exactly where no slot is left. -/
theorem ended_iff_slotsLeft {s : State} (h : admitted s = true) :
    stepOutcome (step s) = .ended ↔ slotsLeft s = 0 := by
  have hw : textWraps s.params = false :=
    textWraps_eq_false.mpr fun _ => key_ne_topSlot_of_admitted h
  have hpc := pc_add_slotsLeft h
  rw [endedExactlyAtEndPc s, ← BitVec.toNat_inj]
  exact ⟨fun ⟨_, he⟩ => by omega, fun h0 => ⟨hw, by omega⟩⟩

/-- Settles O55: a run takes the slots that are left one by one, and ends when there are none. -/
theorem runIsAStraightLine : Obligations.RunIsAStraightLine := by
  intro s ha slots
  have hslots : slots = slotsLeft s := rfl
  refine ⟨fun k t h => ?_, fun t h => ⟨h, ?_⟩, fun k t ⟨h, hend⟩ => ?_⟩
  · have hleft := slotsLeft_after_run ha h
    obtain ⟨-, -, hpc⟩ := run_of_admitted ha h
    exact ⟨by omega, hpc⟩
  · have hleft := slotsLeft_after_run ha h
    obtain ⟨hat, -, -⟩ := run_of_admitted ha h
    exact (ended_iff_slotsLeft hat).mpr (by omega)
  · have hleft := slotsLeft_after_run ha h
    obtain ⟨hat, hps, -⟩ := run_of_admitted ha h
    have hnone := (ended_iff_slotsLeft hat).mp hend
    obtain ⟨-, hpc⟩ := (endedExactlyAtEndPc t).mp hend
    exact ⟨by omega, hps ▸ hpc⟩

end Sys2Proof.Machine
end
